-- ==== Sys2Proof/Word.lean ====
section
/-! DEFINITION. The machine's two bit-vector types and the type of register numbers (00_scope.md R3, R5; 10_state.md R10). -/

namespace Sys2Proof

/-- A 16-bit value: the contents of a register, an address, an instruction (R3: "16 bit word size"). -/
abbrev Word := BitVec 16

/-- The addressable unit, 8 bits (R18). -/
abbrev Byte := BitVec 8

/-- A general register's number, 0 to 7 (R10). -/
abbrev RegId := Fin 8

end Sys2Proof
end

