-- ==== Sys2Proof/Config.lean ====
section
/-! DEFINITION. What the spec fixes for this hardware as constants (00_scope.md R3), and the free values: constants
without a body, so that no proof can learn what they are. -/

namespace Sys2Proof

/-- `START_PC`: "CPU Execution starts at address 0x8000" (R3, R180). -/
def Config.startPc : Word := 0x8000#16

/-- `ROM_BASE`: "program rom starting at address 0x8000" (R3, R33). -/
def Config.romBase : Word := 0x8000#16

/-- The bytes of one instruction, two (R3, R50). -/
def Config.insnBytes : Word := 2#16

/-- What a byte of memory that nothing has written reads as. DESIGN CHOICE (unsafe, log 3): the spec gives no contents
(R20, D10), and every other contents is a memory that lists them. -/
def Config.unlistedByte : Byte := 0x00#8

/-- The free value of `C` after OR, XOR, AND or TEST: draw number `k` (R14, D14; log 7). -/
opaque Config.anyC (k : Nat) : Bool

/-- The free value of `V` after OR, XOR, AND or TEST: draw number `k`, unrelated to `Config.anyC` (R14, D14; log 7). -/
opaque Config.anyV (k : Nat) : Bool

/-- What the platform's device answers to a load of the I/O address `addr`: draw number `k` (R39, D9; log 5). -/
opaque Config.ioRead (k : Nat) (addr : Word) : Word

end Sys2Proof
end

