-- ==== Sys2Proof/Syntax.lean ====
section
/-! DEFINITION. The instructions, one constructor per row of spec/opcode_table.json, with the operands of 30_encoding.md
R70: register numbers, immediates as the integers an assembler writes, byte displacements. -/

namespace Sys2Proof

/-- An instruction of the base ISA. `RR` is the two-register format (operand `B` is register `b`), `RI` the immediate
format (operand `B` is the immediate: an integer in -16 to 15 where the spec sign extends, a number in 0 to 31 where it
zero extends, R58), and a jump carries its displacement `d` in bytes, -256 to 255 (R61). -/
inductive Instr where
  /-- ADD, two registers (R84): x[A] <- x[A] + B, B = x[b]. -/
  | addRR (a b : RegId)
  /-- SUB, two registers (R85): x[A] <- x[A] - B, B = x[b]. -/
  | subRR (a b : RegId)
  /-- RSUB, two registers (R86): x[A] <- B - x[A], B = x[b]. -/
  | rsubRR (a b : RegId)
  /-- CMP, two registers (R87): flags of x[A] - B, B = x[b]. -/
  | cmpRR (a b : RegId)
  /-- OR, two registers (R88): x[A] <- x[A] | B, B = x[b]. -/
  | orRR (a b : RegId)
  /-- XOR, two registers (R89): x[A] <- x[A] ^ B, B = x[b]. -/
  | xorRR (a b : RegId)
  /-- AND, two registers (R90): x[A] <- x[A] & B, B = x[b]. -/
  | andRR (a b : RegId)
  /-- TEST, two registers (R91): flags of x[A] & B, B = x[b]. -/
  | testRR (a b : RegId)
  /-- MOVZ, two registers (R100): x[A] <- B, B = x[b]. -/
  | movzRR (a b : RegId)
  /-- MOV, two registers (R101): x[A] <- B, B = x[b]. -/
  | movRR (a b : RegId)
  /-- LOAD, two registers (R111): x[A] <- MEM[B], B = x[b]. -/
  | loadRR (a b : RegId)
  /-- STORE, two registers (R112): MEM[B] <- x[A], B = x[b]. -/
  | storeRR (a b : RegId)
  /-- ADD, immediate (R84): x[A] <- x[A] + B, B = imm. -/
  | addRI (a : RegId) (imm : Int)
  /-- SUB, immediate (R85): x[A] <- x[A] - B, B = imm. -/
  | subRI (a : RegId) (imm : Int)
  /-- RSUB, immediate (R86): x[A] <- B - x[A], B = imm. -/
  | rsubRI (a : RegId) (imm : Int)
  /-- CMP, immediate (R87): flags of x[A] - B, B = imm. -/
  | cmpRI (a : RegId) (imm : Int)
  /-- OR, immediate (R88): x[A] <- x[A] | B, B = imm. -/
  | orRI (a : RegId) (imm : Int)
  /-- XOR, immediate (R89): x[A] <- x[A] ^ B, B = imm. -/
  | xorRI (a : RegId) (imm : Int)
  /-- AND, immediate (R90): x[A] <- x[A] & B, B = imm. -/
  | andRI (a : RegId) (imm : Int)
  /-- TEST, immediate (R91): flags of x[A] & B, B = imm. -/
  | testRI (a : RegId) (imm : Int)
  /-- MOVZ, immediate (R100): x[A] <- B, B = imm. -/
  | movzRI (a : RegId) (imm : Nat)
  /-- MOV, immediate (R101): x[A] <- B, B = imm. -/
  | movRI (a : RegId) (imm : Int)
  /-- LOAD, immediate (R111): x[A] <- MEM[B], B = imm. -/
  | loadRI (a : RegId) (imm : Nat)
  /-- STORE, immediate (R112): MEM[B] <- x[A], B = imm. -/
  | storeRI (a : RegId) (imm : Nat)
  /-- SLO (R102): x[A] <- (x[A] << 5) | imm. -/
  | slo (a : RegId) (imm : Nat)
  /-- READCR (R120): x[A] <- CR[n]. -/
  | readcr (a : RegId) (n : Nat)
  /-- WRITECR (R121): CR[n] <- x[A]. -/
  | writecr (a : RegId) (n : Nat)
  /-- JZ (R133): jump by `d` bytes if Z. -/
  | jz (d : Int)
  /-- JNZ (R134): jump by `d` bytes if ~Z. -/
  | jnz (d : Int)
  /-- JN (R135): jump by `d` bytes if N. -/
  | jn (d : Int)
  /-- JNN (R136): jump by `d` bytes if ~N. -/
  | jnn (d : Int)
  /-- JC (R137): jump by `d` bytes if C. -/
  | jc (d : Int)
  /-- JNC (R138): jump by `d` bytes if ~C. -/
  | jnc (d : Int)
  /-- JV (R139): jump by `d` bytes if V. -/
  | jv (d : Int)
  /-- JNV (R140): jump by `d` bytes if ~V. -/
  | jnv (d : Int)
  /-- JBE (R141): jump by `d` bytes if C | Z. -/
  | jbe (d : Int)
  /-- JA (R142): jump by `d` bytes if ~(C | Z). -/
  | ja (d : Int)
  /-- JL (R143): jump by `d` bytes if N != V. -/
  | jl (d : Int)
  /-- JGE (R144): jump by `d` bytes if N = V. -/
  | jge (d : Int)
  /-- JLE (R145): jump by `d` bytes if Z | (N != V). -/
  | jle (d : Int)
  /-- JG (R146): jump by `d` bytes if ~Z & (N = V). -/
  | jg (d : Int)
  /-- JMP (R147): jump by `d` bytes if always. -/
  | jmp (d : Int)
  /-- JNEVER (R148): jump by `d` bytes if never. -/
  | jnever (d : Int)
  deriving DecidableEq, Repr

end Sys2Proof
end

