-- ==== Sys2Proof/WellFormed.lean ====
section
/-! DEFINITION. Which instruction terms have an encoding: the operand ranges of 30_encoding.md R70. Register numbers need
no check, their type has eight values (R10). -/

namespace Sys2Proof

/-- A sign-extended immediate, -16 to 15 (R58, R70). -/
abbrev SignedImmOk (imm : Int) : Prop := -16 ≤ imm ∧ imm ≤ 15

/-- A zero-extended immediate or a control register number, 0 to 31 (R58, R70, R122). -/
abbrev UnsignedImmOk (n : Nat) : Prop := n ≤ 31

/-- A byte displacement, -256 to 255 (R61, R70). -/
abbrev DisplacementOk (d : Int) : Prop := -256 ≤ d ∧ d ≤ 255

/-- Every operand of the instruction is in the range its field can hold. -/
def WellFormed (i : Instr) : Bool :=
  match i with
  | .addRR _ _ => true
  | .subRR _ _ => true
  | .rsubRR _ _ => true
  | .cmpRR _ _ => true
  | .orRR _ _ => true
  | .xorRR _ _ => true
  | .andRR _ _ => true
  | .testRR _ _ => true
  | .movzRR _ _ => true
  | .movRR _ _ => true
  | .loadRR _ _ => true
  | .storeRR _ _ => true
  | .addRI _ imm => decide (SignedImmOk imm)
  | .subRI _ imm => decide (SignedImmOk imm)
  | .rsubRI _ imm => decide (SignedImmOk imm)
  | .cmpRI _ imm => decide (SignedImmOk imm)
  | .orRI _ imm => decide (SignedImmOk imm)
  | .xorRI _ imm => decide (SignedImmOk imm)
  | .andRI _ imm => decide (SignedImmOk imm)
  | .testRI _ imm => decide (SignedImmOk imm)
  | .movzRI _ n => decide (UnsignedImmOk n)
  | .movRI _ imm => decide (SignedImmOk imm)
  | .loadRI _ n => decide (UnsignedImmOk n)
  | .storeRI _ n => decide (UnsignedImmOk n)
  | .slo _ n => decide (UnsignedImmOk n)
  | .readcr _ n => decide (UnsignedImmOk n)
  | .writecr _ n => decide (UnsignedImmOk n)
  | .jz d => decide (DisplacementOk d)
  | .jnz d => decide (DisplacementOk d)
  | .jn d => decide (DisplacementOk d)
  | .jnn d => decide (DisplacementOk d)
  | .jc d => decide (DisplacementOk d)
  | .jnc d => decide (DisplacementOk d)
  | .jv d => decide (DisplacementOk d)
  | .jnv d => decide (DisplacementOk d)
  | .jbe d => decide (DisplacementOk d)
  | .ja d => decide (DisplacementOk d)
  | .jl d => decide (DisplacementOk d)
  | .jge d => decide (DisplacementOk d)
  | .jle d => decide (DisplacementOk d)
  | .jg d => decide (DisplacementOk d)
  | .jmp d => decide (DisplacementOk d)
  | .jnever d => decide (DisplacementOk d)

end Sys2Proof
end

