-- ==== Sys2Proof/Decode.lean ====
section
/-! DEFINITION. The decoder of 30_encoding.md R66, total on every pair of bytes, and the encoder of the same three
formats (R55, R58, R60). -/

namespace Sys2Proof

/-- The six classes of reserved words (R62, R66). A word of one of them is no instruction (R63). -/
inductive Reserved where
  /-- `insn[15:14] = 11`, R62 class 1. -/
  | variableLength
  /-- `insn[15:13] = 101`, R62 class 2. -/
  | jumpSpace
  /-- `SS` is not `01`, R62 class 4. -/
  | operationSize
  /-- Opcodes 12 to 15 of the two-register format, R62 class 5. -/
  | noTwoRegisterForm
  /-- `MM` is not `00`, R62 class 6. -/
  | addressingMode
  /-- Opcode 13 of the immediate format, R62 class 8. -/
  | opcode13
  deriving DecidableEq, Repr

/-- The format marker `insn[15:14]` (R51). -/
def fmtField (w : Word) : BitVec 2 := w.extractLsb' 14 2

/-- `insn[13]`: set in the reserved half of the jump quarter (R52, R62). -/
def jumpReservedBit (w : Word) : Bool := w[13]

/-- The operation size `SS`, `insn[13:12]` (R53). -/
def sizeField (w : Word) : BitVec 2 := w.extractLsb' 12 2

/-- The opcode or condition `CCCC`, `insn[11:8]` (R54, R60). -/
def opField (w : Word) : BitVec 4 := w.extractLsb' 8 4

/-- The register field `AAA` or `RRR`, `insn[7:5]` (R55, R58). -/
def aField (w : Word) : RegId := (w.extractLsb' 5 3).toFin

/-- The register field `BBB`, `insn[4:2]` (R55). -/
def bField (w : Word) : RegId := (w.extractLsb' 2 3).toFin

/-- The memory addressing mode `MM`, `insn[1:0]` (R56). -/
def modeField (w : Word) : BitVec 2 := w.extractLsb' 0 2

/-- The 5-bit immediate `insn[4:0]` (R58). -/
def immField (w : Word) : BitVec 5 := w.extractLsb' 0 5

/-- The 9-bit displacement `insn[12] ++ insn[7:0]` (R61, 90_conflicts.md C4). -/
def dispField (w : Word) : BitVec 9 := w.extractLsb' 12 1 ++ w.extractLsb' 0 8

/-- The two-register instructions by opcode (R54); opcodes 12 to 15 have none (R57). -/
def rrInstr (op : BitVec 4) (a b : RegId) : Option Instr :=
  match op.toNat with
  | 0 => some (.addRR a b)
  | 1 => some (.subRR a b)
  | 2 => some (.rsubRR a b)
  | 3 => some (.cmpRR a b)
  | 4 => some (.orRR a b)
  | 5 => some (.xorRR a b)
  | 6 => some (.andRR a b)
  | 7 => some (.testRR a b)
  | 8 => some (.movzRR a b)
  | 9 => some (.movRR a b)
  | 10 => some (.loadRR a b)
  | 11 => some (.storeRR a b)
  | _ => none

/-- The immediate instructions by opcode (R54), the immediate sign extended for opcodes 0 to 7 and 9 and zero extended
for the others (R58); opcode 13 has none (R59). -/
def riInstr (op : BitVec 4) (a : RegId) (imm5 : BitVec 5) : Option Instr :=
  match op.toNat with
  | 0 => some (.addRI a imm5.toInt)
  | 1 => some (.subRI a imm5.toInt)
  | 2 => some (.rsubRI a imm5.toInt)
  | 3 => some (.cmpRI a imm5.toInt)
  | 4 => some (.orRI a imm5.toInt)
  | 5 => some (.xorRI a imm5.toInt)
  | 6 => some (.andRI a imm5.toInt)
  | 7 => some (.testRI a imm5.toInt)
  | 8 => some (.movzRI a imm5.toNat)
  | 9 => some (.movRI a imm5.toInt)
  | 10 => some (.loadRI a imm5.toNat)
  | 11 => some (.storeRI a imm5.toNat)
  | 12 => some (.slo a imm5.toNat)
  | 14 => some (.readcr a imm5.toNat)
  | 15 => some (.writecr a imm5.toNat)
  | _ => none

/-- The jumps by condition (R60, R132), the displacement sign extended (R61). -/
def jumpInstr (cc : BitVec 4) (disp9 : BitVec 9) : Instr :=
  match cc.toNat with
  | 0 => .jz disp9.toInt
  | 1 => .jnz disp9.toInt
  | 2 => .jn disp9.toInt
  | 3 => .jnn disp9.toInt
  | 4 => .jc disp9.toInt
  | 5 => .jnc disp9.toInt
  | 6 => .jv disp9.toInt
  | 7 => .jnv disp9.toInt
  | 8 => .jbe disp9.toInt
  | 9 => .ja disp9.toInt
  | 10 => .jl disp9.toInt
  | 11 => .jge disp9.toInt
  | 12 => .jle disp9.toInt
  | 13 => .jg disp9.toInt
  | 14 => .jmp disp9.toInt
  | _ => .jnever disp9.toInt

/-- `Decode(insn)` (R66): the instruction, or the class of the reserved word. -/
def decode (w : Word) : Except Reserved Instr :=
  if fmtField w = 0b11#2 then .error .variableLength
  else if fmtField w = 0b10#2 then
    if jumpReservedBit w then .error .jumpSpace
    else .ok (jumpInstr (opField w) (dispField w))
  else if sizeField w ≠ 0b01#2 then .error .operationSize
  else if fmtField w = 0b00#2 then
    match rrInstr (opField w) (aField w) (bField w) with
    | none => .error .noTwoRegisterForm
    | some i => if modeField w ≠ 0b00#2 then .error .addressingMode else .ok i
  else
    match riInstr (opField w) (aField w) (immField w) with
    | none => .error .opcode13
    | some i => .ok i

/-- `insn = b1 ++ b2`: the first byte is the high half of the instruction (R5, R30, R50). -/
def insnOfBytes (b1 b2 : Byte) : Word := b1 ++ b2

/-- The decoder on the two bytes of an instruction, the first byte first (R30, R66). -/
def decodeBytes (b1 b2 : Byte) : Except Reserved Instr := decode (insnOfBytes b1 b2)

/-- The first byte of an instruction, `insn[15:8]` (R5). -/
def firstByte (w : Word) : Byte := w.extractLsb' 8 8

/-- The second byte of an instruction, `insn[7:0]` (R5). -/
def secondByte (w : Word) : Byte := w.extractLsb' 0 8

/-- The instruction that the decoder reads from a row of spec/opcode_table.json whose low `nbits` bits are `w`, the bits
above them 0: the word is laid out as its two bytes, the first byte (bits 15 to 8) first. -/
def decodeTableWord (nbits w : Nat) : Option Instr :=
  let insn : Word := BitVec.ofNat 16 (w % 2 ^ nbits)
  match decodeBytes (firstByte insn) (secondByte insn) with
  | .ok i => some i
  | .error _ => none

/-- Format `RR`: `00 01 CCCC AAA BBB 00` (R52, R55). -/
def rrWord (op : BitVec 4) (a b : RegId) : Word :=
  0b00#2 ++ 0b01#2 ++ op ++ (BitVec.ofFin a : BitVec 3) ++ (BitVec.ofFin b : BitVec 3) ++ 0b00#2

/-- Format `RI`: `01 01 CCCC RRR IIIII` (R52, R58). -/
def riWord (op : BitVec 4) (a : RegId) (imm5 : BitVec 5) : Word :=
  0b01#2 ++ 0b01#2 ++ op ++ (BitVec.ofFin a : BitVec 3) ++ imm5

/-- Format `J`: `10 0 D CCCC DDDDDDDD` (R52, R60). -/
def jumpWord (cc : BitVec 4) (disp9 : BitVec 9) : Word :=
  0b10#2 ++ 0b0#1 ++ disp9.extractLsb' 8 1 ++ cc ++ disp9.extractLsb' 0 8

/-- The 5-bit field of a sign-extended immediate, `imm[4:0]` (R70). -/
def immBits (imm : Int) : BitVec 5 := BitVec.ofInt 5 imm

/-- The 5-bit field of a zero-extended immediate or control register number (R70). -/
def numBits (n : Nat) : BitVec 5 := BitVec.ofNat 5 n

/-- The 9-bit field of a displacement (R61). -/
def dispBits (d : Int) : BitVec 9 := BitVec.ofInt 9 d

/-- The word of a well-formed instruction, from the opcode map (R54) and the conditions table (R132). -/
def encode (i : Instr) : Word :=
  match i with
  | .addRR a b => rrWord 0#4 a b
  | .subRR a b => rrWord 1#4 a b
  | .rsubRR a b => rrWord 2#4 a b
  | .cmpRR a b => rrWord 3#4 a b
  | .orRR a b => rrWord 4#4 a b
  | .xorRR a b => rrWord 5#4 a b
  | .andRR a b => rrWord 6#4 a b
  | .testRR a b => rrWord 7#4 a b
  | .movzRR a b => rrWord 8#4 a b
  | .movRR a b => rrWord 9#4 a b
  | .loadRR a b => rrWord 10#4 a b
  | .storeRR a b => rrWord 11#4 a b
  | .addRI a imm => riWord 0#4 a (immBits imm)
  | .subRI a imm => riWord 1#4 a (immBits imm)
  | .rsubRI a imm => riWord 2#4 a (immBits imm)
  | .cmpRI a imm => riWord 3#4 a (immBits imm)
  | .orRI a imm => riWord 4#4 a (immBits imm)
  | .xorRI a imm => riWord 5#4 a (immBits imm)
  | .andRI a imm => riWord 6#4 a (immBits imm)
  | .testRI a imm => riWord 7#4 a (immBits imm)
  | .movzRI a n => riWord 8#4 a (numBits n)
  | .movRI a imm => riWord 9#4 a (immBits imm)
  | .loadRI a n => riWord 10#4 a (numBits n)
  | .storeRI a n => riWord 11#4 a (numBits n)
  | .slo a n => riWord 12#4 a (numBits n)
  | .readcr a n => riWord 14#4 a (numBits n)
  | .writecr a n => riWord 15#4 a (numBits n)
  | .jz d => jumpWord 0#4 (dispBits d)
  | .jnz d => jumpWord 1#4 (dispBits d)
  | .jn d => jumpWord 2#4 (dispBits d)
  | .jnn d => jumpWord 3#4 (dispBits d)
  | .jc d => jumpWord 4#4 (dispBits d)
  | .jnc d => jumpWord 5#4 (dispBits d)
  | .jv d => jumpWord 6#4 (dispBits d)
  | .jnv d => jumpWord 7#4 (dispBits d)
  | .jbe d => jumpWord 8#4 (dispBits d)
  | .ja d => jumpWord 9#4 (dispBits d)
  | .jl d => jumpWord 10#4 (dispBits d)
  | .jge d => jumpWord 11#4 (dispBits d)
  | .jle d => jumpWord 12#4 (dispBits d)
  | .jg d => jumpWord 13#4 (dispBits d)
  | .jmp d => jumpWord 14#4 (dispBits d)
  | .jnever d => jumpWord 15#4 (dispBits d)

end Sys2Proof
end

