-- ==== Sys2Proof/Machine/State.lean ====
section
/-! DEFINITION. The machine's state (10_state.md, 20_memory.md R33, R39), the reasons a step can stop (60_exceptions.md
R161), and the state at the start of execution (R20, R180). -/

namespace Sys2Proof.Machine

/-- The four flags (R13). -/
structure Flags where
  /-- Zero. -/
  z : Bool
  /-- Negative. -/
  n : Bool
  /-- Carry of an addition, borrow of a subtraction. -/
  c : Bool
  /-- Signed overflow. -/
  v : Bool
  deriving DecidableEq, Repr

/-- What an address is, the values of `MemMap` (R33). -/
inductive Region where
  /-- Program ROM: fetched only. -/
  | rom
  /-- RAM: loaded and stored only. -/
  | ram
  /-- A memory-mapped device: loaded and stored only. -/
  | io
  /-- Nothing is mapped there. -/
  | none
  deriving DecidableEq, Repr

/-- The kinds of address a platform may map outside program ROM (R33). -/
inductive DataKind where
  | ram
  | io
  deriving DecidableEq, Repr

/-- One stretch of the platform's memory map, both end addresses included (R33). -/
structure Range where
  first : Word
  last  : Word
  kind  : DataKind
  deriving DecidableEq, Repr

/-- `DATA_BYTE_ORDER` (R31). -/
inductive ByteOrder where
  /-- The low half of a datum lies at the lower address. -/
  | little
  /-- The high half of a datum lies at the lower address. -/
  | big
  deriving DecidableEq, Repr

/-- The platform's launch parameters (R4): no step changes them, and every value of them is a platform, so a statement
about every state holds on every platform (log 4, log 6). -/
structure Platform where
  /-- `ROM_END`, the last byte address of program ROM (R33). -/
  romEnd    : Word
  /-- The RAM and I/O addresses outside ROM; the first range that holds an address decides, and an address in none is
  unmapped. -/
  ranges    : List Range
  dataOrder : ByteOrder
  deriving DecidableEq, Repr

/-- One access to an I/O address, as the device sees it (R39). -/
inductive IoEvent where
  /-- A load of `addr` was answered with `value`. -/
  | read  (addr value : Word)
  /-- `value` was stored to `addr`. -/
  | write (addr value : Word)
  deriving DecidableEq, Repr

/-- The machine (10_state.md, "The whole architectural state"), its platform, and the model's own history and draw counter
(R19). -/
structure State where
  /-- `x[0]` to `x[7]` (R10). -/
  regs     : Vector Word 8
  /-- The address of the current instruction (R12). -/
  pc       : Word
  /-- `Z`, `N`, `C`, `V` (R13). -/
  flags    : Flags
  /-- `CR[0]`, read only (R16). -/
  cpuid1   : Word
  /-- `CR[1]`, read only (R16). -/
  cpuid2   : Word
  /-- `CR[2]`, read only (R16). -/
  feat     : Word
  /-- ROM image and RAM contents, a byte to an address (R18), in one canonical form: see `Memory.wf`. -/
  mem      : List Host.Cell
  /-- Memory map and data byte order (R31, R33). -/
  platform : Platform
  /-- The accesses to I/O addresses so far, oldest first (R39). -/
  ioLog    : List IoEvent
  /-- THE MODEL'S OWN: how many times free values have been drawn (log 7). -/
  draws    : Nat
  deriving DecidableEq, Repr

/-- Why a step stops: the spec's causes of unspecified behaviour, with the information R161 records. Every one of them is
SAFE: the spec gives the hardware no behaviour there, and the model allows no further step (R160). -/
inductive Fault where
  /-- Raised by a fetch at an odd `pc` (R45). Safe. -/
  | fetchMisaligned (pc : Word)
  /-- Raised by a fetch outside program ROM (R34). Safe. -/
  | executeFromNonProgramMemory (pc : Word)
  /-- Raised by a fetch of a reserved word (R63). Safe. -/
  | reservedInstruction (insn : Word) (cls : Reserved) (pc : Word)
  /-- Raised by LOAD and STORE at an odd address (R32). Safe. -/
  | unalignedAccess (addr pc : Word)
  /-- Raised by LOAD and STORE of program ROM (R34). Safe. -/
  | programMemoryAccess (addr pc : Word)
  /-- Raised by LOAD and STORE where nothing is mapped (R34). Safe. -/
  | unmappedAccess (addr pc : Word)
  /-- Raised by READCR and WRITECR for the numbers 3 to 31 (R17). Safe. -/
  | reservedControlRegister (n : Nat) (pc : Word)
  deriving DecidableEq, Repr

/-- What the model gives no meaning. No meaning of the model answers with a refusal. -/
inductive Refusal where
  /-- Raised by an arm of `exec` whose instruction has no meaning yet; there is no such arm. Safe. -/
  | notModelled (mnemonic : String)
  deriving DecidableEq, Repr

/-- The start of execution (R20, R180). `pc`, the control registers are the spec's (R180, R16, D12). Registers and flags at
zero are DESIGN CHOICES (log 2), so are the platform (D7's example map, log 4; the byte order, log 6) and the contents of
memory (log 3); the history is empty (log 5) and no free value is drawn yet (log 7). -/
def State.reset : State where
  regs     := Vector.replicate 8 0#16
  pc       := Config.startPc
  flags    := { z := false, n := false, c := false, v := false }
  cpuid1   := 0#16
  cpuid2   := 0#16
  feat     := 0#16
  mem      := []
  platform :=
    { romEnd    := 0xFFFF#16
      ranges    := [{ first := 0x0000#16, last := 0x7FFF#16, kind := .ram }]
      dataOrder := .little }
  ioLog    := []
  draws    := 0

end Sys2Proof.Machine
end

