-- ==== Sys2Proof/Machine/Ops.lean ====
section
/-! DEFINITION. The named operations over registers, memory, the memory map, I/O and control registers: one home for each
(10_state.md R10 to R17, 20_memory.md R30 to R39). The hardware takes no exceptions and returns from none (60_exceptions.md
R164, R165): where the spec writes `raise`, an operation answers with a fault and writes nothing (R160, R163). -/

namespace Sys2Proof.Machine

/-! ### Registers, flags, program counter -/

/-- `x[r]` (R6, R10). -/
def State.reg (s : State) (r : RegId) : Word := s.regs.get r

/-- `x[r] <- v` (R6, R10); no register is hardwired (R11). -/
def State.setReg (s : State) (r : RegId) (v : Word) : State := { s with regs := s.regs.set r.val v r.isLt }

/-- All four flags become `f` (R13). -/
def State.setFlags (s : State) (f : Flags) : State := { s with flags := f }

/-- `pc <- target` (R6). -/
def State.setPc (s : State) (target : Word) : State := { s with pc := target }

/-- The address of the instruction after this one, `pc + 2` modulo 2^16 (R12, D4). -/
def State.nextPc (s : State) : Word := s.pc + Config.insnBytes

/-- `pc <- pc + 2` (R12, D4). -/
def State.advance (s : State) : State := s.setPc s.nextPc

/-- One more draw of free values has been made (R14, R39; log 7). -/
def State.drawn (s : State) : State := { s with draws := s.draws + 1 }

/-! ### Memory: a list of cells in canonical form -/

/-- The byte at address `a`: the listed one, or what an unlisted address reads as. -/
def Memory.read (m : List Host.Cell) (a : Nat) : Byte :=
  match m with
  | [] => Config.unlistedByte
  | (k, b) :: rest => if k = a then b else Memory.read rest a

/-- No cell is listed for the address `a`. -/
def Memory.erase (m : List Host.Cell) (a : Nat) : List Host.Cell :=
  match m with
  | [] => []
  | (k, b) :: rest => if k = a then Memory.erase rest a else (k, b) :: Memory.erase rest a

/-- The cell of address `a` put before the first cell of a higher address. -/
def Memory.insert (m : List Host.Cell) (a : Nat) (v : Byte) : List Host.Cell :=
  match m with
  | [] => [(a, v)]
  | (k, b) :: rest => if a < k then (a, v) :: (k, b) :: rest else (k, b) :: Memory.insert rest a v

/-- The byte at address `a` becomes `v`; a byte equal to what an unlisted address reads as is not listed. -/
def Memory.write (m : List Host.Cell) (a : Nat) (v : Byte) : List Host.Cell :=
  if v = Config.unlistedByte then Memory.erase m a else Memory.insert (Memory.erase m a) a v

/-- Every listed address is above `low`, and the addresses rise strictly. -/
def Memory.rising (low : Nat) (m : List Host.Cell) : Bool :=
  match m with
  | [] => true
  | (k, _) :: rest => decide (low < k) && Memory.rising k rest

/-- The canonical form: addresses rise strictly and lie in the 16-bit address space (R18), and no cell holds what an
unlisted address reads as. -/
def Memory.wf (m : List Host.Cell) : Bool :=
  (match m with
    | [] => true
    | (k, _) :: rest => Memory.rising k rest) &&
  m.all fun cell => decide (cell.1 < 2 ^ 16) && decide (cell.2 ≠ Config.unlistedByte)

/-- The 16-bit datum at the even address `addr`, in the platform's byte order (R31, R36). -/
def Memory.readWord (order : ByteOrder) (m : List Host.Cell) (addr : Word) : Word :=
  let low := Memory.read m addr.toNat
  let high := Memory.read m (addr + 1).toNat
  match order with
  | .little => high ++ low
  | .big => low ++ high

/-- The 16-bit datum at the even address `addr` becomes `v` (R31, R37): the bytes at `addr` and `addr + 1`. -/
def Memory.writeWord (order : ByteOrder) (m : List Host.Cell) (addr v : Word) : List Host.Cell :=
  match order with
  | .little => Memory.write (Memory.write m addr.toNat (secondByte v)) (addr + 1).toNat (firstByte v)
  | .big => Memory.write (Memory.write m addr.toNat (firstByte v)) (addr + 1).toNat (secondByte v)

/-! ### The memory map -/

/-- The region of a data kind. -/
def DataKind.region (k : DataKind) : Region :=
  match k with
  | .ram => .ram
  | .io => .io

/-- The region of `a` by the ranges alone; `NONE` if no range holds it. -/
def rangesRegion (ranges : List Range) (a : Word) : Region :=
  match ranges with
  | [] => .none
  | r :: rest => if r.first ≤ a ∧ a ≤ r.last then r.kind.region else rangesRegion rest a

/-- The even address of the pair of bytes that holds `a`. -/
def evenAddr (a : Word) : Word := a &&& 0xFFFE#16

/-- `MemMap(a)` (R33). D7's constraints hold by its form: ROM is the contiguous stretch from 0x8000 to `romEnd`, 0x8000 is
in it, and the two bytes of an even pair have one region. -/
def memMap (p : Platform) (a : Word) : Region :=
  let e := evenAddr a
  if e = Config.romBase ∨ (Config.romBase ≤ e ∧ e ≤ p.romEnd) then .rom else rangesRegion p.ranges e

/-! ### Fetch, data access, I/O -/

/-- `Fetch(pc)` (R35), the two bytes as one instruction word `b1 ++ b2` (R30). -/
def fetch (s : State) : Except Fault Word :=
  if s.pc[0] then .error (.fetchMisaligned s.pc)
  else if memMap s.platform s.pc ≠ .rom ∨ memMap s.platform (s.pc + 1) ≠ .rom then
    .error (.executeFromNonProgramMemory s.pc)
  else .ok (insnOfBytes (Memory.read s.mem s.pc.toNat) (Memory.read s.mem (s.pc + 1).toNat))

/-- `IoDevice.read(addr)` (R39): a fresh draw, recorded in the history (D9; log 5). -/
def ioRead (addr : Word) (s : State) : Word × State :=
  let v := Config.ioRead s.draws addr
  (v, { s with ioLog := s.ioLog ++ [IoEvent.read addr v] }.drawn)

/-- `IoDevice.write(addr, v)` (R39): an event of the history (D9; log 5). -/
def ioWrite (addr v : Word) (s : State) : State := { s with ioLog := s.ioLog ++ [IoEvent.write addr v] }

/-- `MemRead(addr, 2)` (R36): the value and the state after the access, or the fault of R163's order of checks. -/
def memRead (addr : Word) (s : State) : Except Fault (Word × State) :=
  if addr[0] then .error (.unalignedAccess addr s.pc)
  else
    match memMap s.platform addr with
    | .rom => .error (.programMemoryAccess addr s.pc)
    | .none => .error (.unmappedAccess addr s.pc)
    | .ram => .ok (Memory.readWord s.platform.dataOrder s.mem addr, s)
    | .io => .ok (ioRead addr s)

/-- `MemWrite(addr, 2, v)` (R37): the state after the access, or the fault of R163's order of checks. -/
def memWrite (addr v : Word) (s : State) : Except Fault State :=
  if addr[0] then .error (.unalignedAccess addr s.pc)
  else
    match memMap s.platform addr with
    | .rom => .error (.programMemoryAccess addr s.pc)
    | .none => .error (.unmappedAccess addr s.pc)
    | .ram => .ok { s with mem := Memory.writeWord s.platform.dataOrder s.mem addr v }
    | .io => .ok (ioWrite addr v s)

/-! ### Control registers -/

/-- `CR[n]` for the three defined numbers (R15, R16); a read of any other is unspecified behaviour (R17). -/
def readCR (n : Nat) (s : State) : Except Fault Word :=
  match n with
  | 0 => .ok s.cpuid1
  | 1 => .ok s.cpuid2
  | 2 => .ok s.feat
  | n => .error (.reservedControlRegister n s.pc)

/-- `CR[n] <- v`: "Writing to it is a NOP." for the three defined numbers (R16); a write of any other is unspecified
behaviour (R17). -/
def writeCR (n : Nat) (_v : Word) (s : State) : Except Fault State :=
  if n ≤ 2 then .ok s else .error (.reservedControlRegister n s.pc)

/-! ### Outcomes -/

/-- A step's outcome from an operation that may raise a fault and a continuation that cannot (R160, R163). -/
def finish {α : Type} (r : Except Fault α) (k : α → State) : Host.Outcome State Fault Refusal :=
  match r with
  | .ok x => .next (k x)
  | .error f => .fault f

end Sys2Proof.Machine
end

