-- ==== Sys2Proof/Machine/Flags.lean ====
section
/-! DEFINITION. The flag functions (40_arith_logic.md R80, R81, R82) and the sixteen jump conditions (44_jumps.md R132). -/

namespace Sys2Proof.Machine

/-- `AddFlags(l, r)` (R80): the sum modulo 2^16 and the four flags. -/
def addFlags (l r : Word) : Word × Flags :=
  let sum17 : BitVec 17 := l.setWidth 17 + r.setWidth 17
  let res : Word := sum17.setWidth 16
  (res, { z := res == 0#16
          n := res[15]
          c := sum17[16]
          v := l[15] == r[15] && res[15] != l[15] })

/-- `SubFlags(l, r)` (R81): `l - r` by complement and carry-in, `C` the inverse of the carry out. -/
def subFlags (l r : Word) : Word × Flags :=
  let sum17 : BitVec 17 := l.setWidth 17 + (~~~r).setWidth 17 + 1#17
  let res : Word := sum17.setWidth 16
  (res, { z := res == 0#16
          n := res[15]
          c := !sum17[16]
          v := l[15] != r[15] && res[15] != l[15] })

/-- `LogicFlags(res)` (R82): `Z` and `N` of the result; `C` and `V` are the free values of draw number `k` (R14). -/
def logicFlags (res : Word) (k : Nat) : Flags :=
  { z := res == 0#16
    n := res[15]
    c := Config.anyC k
    v := Config.anyV k }

/-- The conditions of the jump format, in the order of R132's table. -/
inductive Cond where
  | zero
  | notZero
  | negative
  | notNegative
  | carry
  | noCarry
  | overflow
  | noOverflow
  | belowOrEqual
  | above
  | less
  | greaterOrEqual
  | lessOrEqual
  | greater
  | always
  | never
  deriving DecidableEq, Repr

/-- `Cond(CCCC, Z, N, C, V)` (R132). -/
def condHolds (cc : Cond) (f : Flags) : Bool :=
  match cc with
  | .zero => f.z
  | .notZero => !f.z
  | .negative => f.n
  | .notNegative => !f.n
  | .carry => f.c
  | .noCarry => !f.c
  | .overflow => f.v
  | .noOverflow => !f.v
  | .belowOrEqual => f.c || f.z
  | .above => !(f.c || f.z)
  | .less => f.n != f.v
  | .greaterOrEqual => f.n == f.v
  | .lessOrEqual => f.z || f.n != f.v
  | .greater => !f.z && f.n == f.v
  | .always => true
  | .never => false

end Sys2Proof.Machine
end

