-- ==== Sys2Proof/Machine/Operands.lean ====
section
/-! DEFINITION. The operand forms: register, sign-extended and zero-extended immediate, the two address forms, the jump
target (30_encoding.md R55, R58, R61; 42_load_store.md R110; 44_jumps.md R131). -/

namespace Sys2Proof.Machine

/-- Operand `B` of format `RR`: `x[b]` (R55, R56). -/
def regOperand (b : RegId) (s : State) : Word := s.reg b

/-- Operand `B` of format `RI` for opcodes 0 to 7 and 9: `sext_16(imm5)`, the 16-bit pattern of the integer (R58). -/
def signedImm (imm : Int) : Word := BitVec.ofInt 16 imm

/-- Operand `B` of format `RI` for opcodes 8 and 10 to 15: `zext_16(imm5)` (R58). -/
def unsignedImm (n : Nat) : Word := BitVec.ofNat 16 n

/-- The address of a register-indirect LOAD or STORE: `x[b]` (R110). -/
def indirectAddr (b : RegId) (s : State) : Word := s.reg b

/-- The address of an absolute LOAD or STORE: `zext_16(imm5)` (R110). -/
def absoluteAddr (n : Nat) : Word := unsignedImm n

/-- The target of a jump: `pc + sext_16(disp9)` modulo 2^16, `pc` the jump's own address, the displacement in bytes (R131,
D5). -/
def jumpTarget (d : Int) (s : State) : Word := s.pc + BitVec.ofInt 16 d

end Sys2Proof.Machine
end

