-- ==== Sys2Proof/Machine/ArithLogic.lean ====
section
/-! DEFINITION. ADD, SUB, RSUB, CMP, OR, XOR, AND, TEST (40_arith_logic.md R84 to R91). Both operands are read before
the destination is written (R93). -/

namespace Sys2Proof.Machine

/-- The result of an arithmetic operation goes to register `a`, its flags to `Z`, `N`, `C`, `V`, and `pc` advances (R84 to
R86). -/
def storeResult (a : RegId) (r : Word × Flags) (s : State) : State := ((s.setReg a r.1).setFlags r.2).advance

/-- The flags of an arithmetic operation are written, its result is discarded, and `pc` advances (R83, R87). -/
def storeFlags (r : Word × Flags) (s : State) : State := (s.setFlags r.2).advance

/-- The result of a bitwise operation goes to register `a`, `Z` and `N` are set from it, `C` and `V` are drawn, and `pc`
advances (R82, R88 to R90). -/
def storeLogic (a : RegId) (res : Word) (s : State) : State :=
  ((s.setReg a res).setFlags (logicFlags res s.draws)).drawn.advance

/-- `Z` and `N` are set from a discarded result, `C` and `V` are drawn, and `pc` advances (R82, R83, R91). -/
def storeLogicFlags (res : Word) (s : State) : State := (s.setFlags (logicFlags res s.draws)).drawn.advance

/-- ADD, two registers (R84). -/
def execAddRR (a b : RegId) (s : State) : Host.Outcome State Fault Refusal :=
  .next (storeResult a (addFlags (s.reg a) (regOperand b s)) s)

/-- ADD, immediate (R84). -/
def execAddRI (a : RegId) (imm : Int) (s : State) : Host.Outcome State Fault Refusal :=
  .next (storeResult a (addFlags (s.reg a) (signedImm imm)) s)

/-- SUB, two registers (R85). -/
def execSubRR (a b : RegId) (s : State) : Host.Outcome State Fault Refusal :=
  .next (storeResult a (subFlags (s.reg a) (regOperand b s)) s)

/-- SUB, immediate (R85). -/
def execSubRI (a : RegId) (imm : Int) (s : State) : Host.Outcome State Fault Refusal :=
  .next (storeResult a (subFlags (s.reg a) (signedImm imm)) s)

/-- RSUB, two registers (R86: `B` is the minuend). -/
def execRsubRR (a b : RegId) (s : State) : Host.Outcome State Fault Refusal :=
  .next (storeResult a (subFlags (regOperand b s) (s.reg a)) s)

/-- RSUB, immediate (R86: `B` is the minuend). -/
def execRsubRI (a : RegId) (imm : Int) (s : State) : Host.Outcome State Fault Refusal :=
  .next (storeResult a (subFlags (signedImm imm) (s.reg a)) s)

/-- CMP, two registers (R87). -/
def execCmpRR (a b : RegId) (s : State) : Host.Outcome State Fault Refusal :=
  .next (storeFlags (subFlags (s.reg a) (regOperand b s)) s)

/-- CMP, immediate (R87). -/
def execCmpRI (a : RegId) (imm : Int) (s : State) : Host.Outcome State Fault Refusal :=
  .next (storeFlags (subFlags (s.reg a) (signedImm imm)) s)

/-- OR, two registers (R88). -/
def execOrRR (a b : RegId) (s : State) : Host.Outcome State Fault Refusal :=
  .next (storeLogic a (s.reg a ||| (regOperand b s)) s)

/-- OR, immediate (R88). -/
def execOrRI (a : RegId) (imm : Int) (s : State) : Host.Outcome State Fault Refusal :=
  .next (storeLogic a (s.reg a ||| (signedImm imm)) s)

/-- XOR, two registers (R89). -/
def execXorRR (a b : RegId) (s : State) : Host.Outcome State Fault Refusal :=
  .next (storeLogic a (s.reg a ^^^ (regOperand b s)) s)

/-- XOR, immediate (R89). -/
def execXorRI (a : RegId) (imm : Int) (s : State) : Host.Outcome State Fault Refusal :=
  .next (storeLogic a (s.reg a ^^^ (signedImm imm)) s)

/-- AND, two registers (R90). -/
def execAndRR (a b : RegId) (s : State) : Host.Outcome State Fault Refusal :=
  .next (storeLogic a (s.reg a &&& (regOperand b s)) s)

/-- AND, immediate (R90). -/
def execAndRI (a : RegId) (imm : Int) (s : State) : Host.Outcome State Fault Refusal :=
  .next (storeLogic a (s.reg a &&& (signedImm imm)) s)

/-- TEST, two registers (R91). -/
def execTestRR (a b : RegId) (s : State) : Host.Outcome State Fault Refusal :=
  .next (storeLogicFlags (s.reg a &&& (regOperand b s)) s)

/-- TEST, immediate (R91). -/
def execTestRI (a : RegId) (imm : Int) (s : State) : Host.Outcome State Fault Refusal :=
  .next (storeLogicFlags (s.reg a &&& (signedImm imm)) s)

end Sys2Proof.Machine
end

