-- ==== Sys2Proof/Machine/ControlRegs.lean ====
section
/-! DEFINITION. READCR, WRITECR (43_control_registers.md R120 to R123). They need no privilege: there is one mode (R166). -/

namespace Sys2Proof.Machine

/-- READCR (R120). -/
def execReadcr (a : RegId) (n : Nat) (s : State) : Host.Outcome State Fault Refusal :=
  finish (readCR n s) fun v => (s.setReg a v).advance

/-- WRITECR (R121): a no-op for the three defined registers. -/
def execWritecr (a : RegId) (n : Nat) (s : State) : Host.Outcome State Fault Refusal :=
  finish (writeCR n (s.reg a) s) State.advance

end Sys2Proof.Machine
end

