-- ==== Sys2Proof/Machine/Jumps.lean ====
section
/-! DEFINITION. The sixteen conditional relative jumps (44_jumps.md R130 to R152). A bad target faults at the next fetch,
not in the jump (R151). -/

namespace Sys2Proof.Machine

/-- Every jump (R130): to the target if the condition holds, else to the next instruction; nothing but `pc` changes. -/
def jumpIf (cc : Cond) (d : Int) (s : State) : State :=
  if condHolds cc s.flags then s.setPc (jumpTarget d s) else s.advance

/-- JZ (R133). -/
def execJz (d : Int) (s : State) : Host.Outcome State Fault Refusal :=
  .next (jumpIf .zero d s)

/-- JNZ (R134). -/
def execJnz (d : Int) (s : State) : Host.Outcome State Fault Refusal :=
  .next (jumpIf .notZero d s)

/-- JN (R135). -/
def execJn (d : Int) (s : State) : Host.Outcome State Fault Refusal :=
  .next (jumpIf .negative d s)

/-- JNN (R136). -/
def execJnn (d : Int) (s : State) : Host.Outcome State Fault Refusal :=
  .next (jumpIf .notNegative d s)

/-- JC (R137). -/
def execJc (d : Int) (s : State) : Host.Outcome State Fault Refusal :=
  .next (jumpIf .carry d s)

/-- JNC (R138). -/
def execJnc (d : Int) (s : State) : Host.Outcome State Fault Refusal :=
  .next (jumpIf .noCarry d s)

/-- JV (R139). -/
def execJv (d : Int) (s : State) : Host.Outcome State Fault Refusal :=
  .next (jumpIf .overflow d s)

/-- JNV (R140). -/
def execJnv (d : Int) (s : State) : Host.Outcome State Fault Refusal :=
  .next (jumpIf .noOverflow d s)

/-- JBE (R141). -/
def execJbe (d : Int) (s : State) : Host.Outcome State Fault Refusal :=
  .next (jumpIf .belowOrEqual d s)

/-- JA (R142). -/
def execJa (d : Int) (s : State) : Host.Outcome State Fault Refusal :=
  .next (jumpIf .above d s)

/-- JL (R143). -/
def execJl (d : Int) (s : State) : Host.Outcome State Fault Refusal :=
  .next (jumpIf .less d s)

/-- JGE (R144). -/
def execJge (d : Int) (s : State) : Host.Outcome State Fault Refusal :=
  .next (jumpIf .greaterOrEqual d s)

/-- JLE (R145). -/
def execJle (d : Int) (s : State) : Host.Outcome State Fault Refusal :=
  .next (jumpIf .lessOrEqual d s)

/-- JG (R146). -/
def execJg (d : Int) (s : State) : Host.Outcome State Fault Refusal :=
  .next (jumpIf .greater d s)

/-- JMP (R147). -/
def execJmp (d : Int) (s : State) : Host.Outcome State Fault Refusal :=
  .next (jumpIf .always d s)

/-- JNEVER (R148): a no-op for every displacement (R149, D16). -/
def execJnever (d : Int) (s : State) : Host.Outcome State Fault Refusal :=
  .next (jumpIf .never d s)

end Sys2Proof.Machine
end

