-- ==== Sys2Proof/Machine/LoadStore.lean ====
section
/-! DEFINITION. LOAD, STORE (42_load_store.md R110 to R113). No flag changes and no base register is updated. -/

namespace Sys2Proof.Machine

/-- `x[a] <- MemRead(addr, 2)` and `pc` advances, or the fault of the access (R111). -/
def loadFrom (a : RegId) (addr : Word) (s : State) : Host.Outcome State Fault Refusal :=
  finish (memRead addr s) fun r => (r.2.setReg a r.1).advance

/-- `MemWrite(addr, 2, x[a])` and `pc` advances, or the fault of the access (R112). -/
def storeTo (a : RegId) (addr : Word) (s : State) : Host.Outcome State Fault Refusal :=
  finish (memWrite addr (s.reg a) s) State.advance

/-- LOAD, register indirect (R110, R111). -/
def execLoadRR (a b : RegId) (s : State) : Host.Outcome State Fault Refusal :=
  loadFrom a (indirectAddr b s) s

/-- LOAD, absolute (R110, R111). -/
def execLoadRI (a : RegId) (imm : Nat) (s : State) : Host.Outcome State Fault Refusal :=
  loadFrom a (absoluteAddr imm) s

/-- STORE, register indirect (R110, R112). -/
def execStoreRR (a b : RegId) (s : State) : Host.Outcome State Fault Refusal :=
  storeTo a (indirectAddr b s) s

/-- STORE, absolute (R110, R112). -/
def execStoreRI (a : RegId) (imm : Nat) (s : State) : Host.Outcome State Fault Refusal :=
  storeTo a (absoluteAddr imm) s

end Sys2Proof.Machine
end

