-- ==== Sys2Proof/Machine/MoveSlo.lean ====
section
/-! DEFINITION. MOVZ, MOV, SLO (41_move_slo.md R100 to R102). None writes a flag. -/

namespace Sys2Proof.Machine

/-- Register `a` becomes `v`, no flag changes, and `pc` advances (R100 to R102). -/
def moveTo (a : RegId) (v : Word) (s : State) : State := (s.setReg a v).advance

/-- MOVZ, two registers (R100): the operand is 16 bits wide already. -/
def execMovzRR (a b : RegId) (s : State) : Host.Outcome State Fault Refusal :=
  .next (moveTo a (regOperand b s) s)

/-- MOVZ, immediate (R100). -/
def execMovzRI (a : RegId) (imm : Nat) (s : State) : Host.Outcome State Fault Refusal :=
  .next (moveTo a (unsignedImm imm) s)

/-- MOV, two registers (R101): the operand is 16 bits wide already. -/
def execMovRR (a b : RegId) (s : State) : Host.Outcome State Fault Refusal :=
  .next (moveTo a (regOperand b s) s)

/-- MOV, immediate (R101). -/
def execMovRI (a : RegId) (imm : Int) (s : State) : Host.Outcome State Fault Refusal :=
  .next (moveTo a (signedImm imm) s)

/-- SLO (R102): `A <- (A << 5) | B`, the bits shifted out are lost. -/
def execSlo (a : RegId) (imm : Nat) (s : State) : Host.Outcome State Fault Refusal :=
  .next (moveTo a ((s.reg a <<< 5) ||| unsignedImm imm) s)

end Sys2Proof.Machine
end

