-- ==== Sys2Proof/Machine/Dispatch.lean ====
section
/-! DEFINITION. One arm per instruction, each one call of its meaning. -/

namespace Sys2Proof.Machine

/-- The effect of one decoded instruction on the state whose `pc` is its address (00_scope.md R6, R7). -/
def exec (i : Instr) (s : State) : Host.Outcome State Fault Refusal :=
  match i with
  | .addRR a b => Sys2Proof.Machine.execAddRR a b s
  | .subRR a b => Sys2Proof.Machine.execSubRR a b s
  | .rsubRR a b => Sys2Proof.Machine.execRsubRR a b s
  | .cmpRR a b => Sys2Proof.Machine.execCmpRR a b s
  | .orRR a b => Sys2Proof.Machine.execOrRR a b s
  | .xorRR a b => Sys2Proof.Machine.execXorRR a b s
  | .andRR a b => Sys2Proof.Machine.execAndRR a b s
  | .testRR a b => Sys2Proof.Machine.execTestRR a b s
  | .movzRR a b => Sys2Proof.Machine.execMovzRR a b s
  | .movRR a b => Sys2Proof.Machine.execMovRR a b s
  | .loadRR a b => Sys2Proof.Machine.execLoadRR a b s
  | .storeRR a b => Sys2Proof.Machine.execStoreRR a b s
  | .addRI a imm => Sys2Proof.Machine.execAddRI a imm s
  | .subRI a imm => Sys2Proof.Machine.execSubRI a imm s
  | .rsubRI a imm => Sys2Proof.Machine.execRsubRI a imm s
  | .cmpRI a imm => Sys2Proof.Machine.execCmpRI a imm s
  | .orRI a imm => Sys2Proof.Machine.execOrRI a imm s
  | .xorRI a imm => Sys2Proof.Machine.execXorRI a imm s
  | .andRI a imm => Sys2Proof.Machine.execAndRI a imm s
  | .testRI a imm => Sys2Proof.Machine.execTestRI a imm s
  | .movzRI a imm => Sys2Proof.Machine.execMovzRI a imm s
  | .movRI a imm => Sys2Proof.Machine.execMovRI a imm s
  | .loadRI a imm => Sys2Proof.Machine.execLoadRI a imm s
  | .storeRI a imm => Sys2Proof.Machine.execStoreRI a imm s
  | .slo a imm => Sys2Proof.Machine.execSlo a imm s
  | .readcr a n => Sys2Proof.Machine.execReadcr a n s
  | .writecr a n => Sys2Proof.Machine.execWritecr a n s
  | .jz d => Sys2Proof.Machine.execJz d s
  | .jnz d => Sys2Proof.Machine.execJnz d s
  | .jn d => Sys2Proof.Machine.execJn d s
  | .jnn d => Sys2Proof.Machine.execJnn d s
  | .jc d => Sys2Proof.Machine.execJc d s
  | .jnc d => Sys2Proof.Machine.execJnc d s
  | .jv d => Sys2Proof.Machine.execJv d s
  | .jnv d => Sys2Proof.Machine.execJnv d s
  | .jbe d => Sys2Proof.Machine.execJbe d s
  | .ja d => Sys2Proof.Machine.execJa d s
  | .jl d => Sys2Proof.Machine.execJl d s
  | .jge d => Sys2Proof.Machine.execJge d s
  | .jle d => Sys2Proof.Machine.execJle d s
  | .jg d => Sys2Proof.Machine.execJg d s
  | .jmp d => Sys2Proof.Machine.execJmp d s
  | .jnever d => Sys2Proof.Machine.execJnever d s

end Sys2Proof.Machine
end

