-- ==== Sys2Proof/Machine/Step.lean ====
section
/-! DEFINITION. One step: fetch, decode, execute, with the checks in the order of 60_exceptions.md R163. -/

namespace Sys2Proof.Machine

/-- One step of the machine (R163). There are no interrupts and no pending work: a step is one instruction (R7, R162). -/
def step (s : State) : Host.Outcome State Fault Refusal :=
  match fetch s with
  | .error f => .fault f
  | .ok w =>
    match decode w with
    | .error cls => .fault (.reservedInstruction w cls s.pc)
    | .ok i => exec i s

/-- The state with the instruction word `w` stored where the next step fetches: its first byte at `pc`, its second at
`pc + 1` (R30). It stands for the platform's loading of the ROM image (log 13). -/
def State.withFetchWord (s : State) (nbits w : Nat) : State :=
  let insn : Word := BitVec.ofNat 16 (w % 2 ^ nbits)
  { s with
    mem := Memory.write (Memory.write s.mem s.pc.toNat (firstByte insn)) (s.pc + 1).toNat (secondByte insn) }

end Sys2Proof.Machine
end

