-- ==== Sys2Proof/Safety.lean ====
section
/-! DEFINITION. What counts as a safe run and as the end of one, the invariant of the machine, and the relations that the
statements use (60_exceptions.md R160, R161; 70_reset_and_hazards.md R183; 20_memory.md R31). -/

namespace Sys2Proof.Machine

/-- The event names an even address of an I/O region (R32, R39). -/
def IoEvent.ok (p : Platform) (e : IoEvent) : Bool :=
  match e with
  | .read addr _ => !addr[0] && decide (memMap p addr = .io)
  | .write addr _ => !addr[0] && decide (memMap p addr = .io)

/-- The machine's invariant: memory is in canonical form, `Z` and `N` are not both set, the three control registers hold
this hardware's constants (R16, D12), and the history holds aligned I/O accesses only (R39). -/
structure Inv (s : State) : Prop where
  memory : Memory.wf s.mem = true
  flags  : ¬ (s.flags.z = true ∧ s.flags.n = true)
  cpuid1 : s.cpuid1 = 0#16
  cpuid2 : s.cpuid2 = 0#16
  feat   : s.feat = 0#16
  ioLog  : ∀ e ∈ s.ioLog, e.ok s.platform = true

/-- The step completes: it neither faults nor is refused. -/
def Completes (s : State) : Prop := ∃ t, step s = .next t

/-- No run from `s`, however long, reaches a fault (R160). -/
def NoFaultReachable (s : State) : Prop := ∀ k f, Sys2Proof.core.run k s ≠ .fault f

/-- The word of `JMP 0` (R183, D19). -/
def haltWord : Word := 0x8E00#16

/-- The end-of-run convention of R183: `pc` holds the address of a `JMP 0`. -/
def AtEnd (s : State) : Prop := fetch s = .ok haltWord

/-- `t` is the end state of the run from `s`: the state when `pc` first reaches a `JMP 0` (R183). -/
def EndState (s t : State) : Prop :=
  ∃ k, Sys2Proof.core.run k s = .next t ∧ AtEnd t ∧ ∀ j < k, ∀ u, Sys2Proof.core.run j s = .next u → ¬ AtEnd u

/-- The instruction that the next step executes, where the fetch succeeds and the word is valid. -/
def Executes (s : State) (i : Instr) : Prop := ∃ w, fetch s = .ok w ∧ decode w = .ok i

/-- The address of the instruction's data access (R110); instructions other than LOAD and STORE make none (R38). -/
def dataAddr (i : Instr) (s : State) : Option Word :=
  match i with
  | .loadRR _ b | .storeRR _ b => some (indirectAddr b s)
  | .loadRI _ imm | .storeRI _ imm => some (absoluteAddr imm)
  | _ => none

/-- The number of the control register that the instruction names (R122). -/
def controlNumber (i : Instr) : Option Nat :=
  match i with
  | .readcr _ n | .writecr _ n => some n
  | _ => none

/-- The sixteen jumps (R132). -/
def isJump (i : Instr) : Bool :=
  match i with
  | .jz _ | .jnz _ | .jn _ | .jnn _ | .jc _ | .jnc _ | .jv _ | .jnv _ => true
  | .jbe _ | .ja _ | .jl _ | .jge _ | .jle _ | .jg _ | .jmp _ | .jnever _ => true
  | _ => false

/-- The condition under which R161 and R163 raise the fault `f` in the state `s`. -/
def FaultCause (s : State) (f : Fault) : Prop :=
  match f with
  | .fetchMisaligned pc => pc = s.pc ∧ s.pc[0] = true
  | .executeFromNonProgramMemory pc =>
    pc = s.pc ∧ s.pc[0] = false ∧ (memMap s.platform s.pc ≠ .rom ∨ memMap s.platform (s.pc + 1) ≠ .rom)
  | .reservedInstruction insn cls pc => pc = s.pc ∧ fetch s = .ok insn ∧ decode insn = .error cls
  | .unalignedAccess addr pc =>
    pc = s.pc ∧ (∃ i, Executes s i ∧ dataAddr i s = some addr) ∧ addr[0] = true
  | .programMemoryAccess addr pc =>
    pc = s.pc ∧ (∃ i, Executes s i ∧ dataAddr i s = some addr) ∧ addr[0] = false ∧ memMap s.platform addr = .rom
  | .unmappedAccess addr pc =>
    pc = s.pc ∧ (∃ i, Executes s i ∧ dataAddr i s = some addr) ∧ addr[0] = false ∧ memMap s.platform addr = .none
  | .reservedControlRegister n pc => pc = s.pc ∧ (∃ i, Executes s i ∧ controlNumber i = some n) ∧ 2 < n

/-- The two states differ at most in the data byte order and in the bytes it places: program ROM holds the same bytes, and
every aligned RAM datum has the same value in each state's own order (R31). -/
structure SameButByteOrder (s t : State) : Prop where
  rest : t = { s with mem := t.mem, platform := { s.platform with dataOrder := t.platform.dataOrder } }
  rom  : ∀ a : Word, memMap s.platform a = .rom → Memory.read t.mem a.toNat = Memory.read s.mem a.toNat
  ram  : ∀ a : Word, a[0] = false → memMap s.platform a = .ram →
    Memory.readWord t.platform.dataOrder t.mem a = Memory.readWord s.platform.dataOrder s.mem a

/-- Both outcomes are next states in the relation `R`, or both are the same fault. -/
def OutcomesAgree (R : State → State → Prop) (o o' : Host.Outcome State Fault Refusal) : Prop :=
  match o, o' with
  | .next s, .next t => R s t
  | .fault f, .fault g => f = g
  | _, _ => False

end Sys2Proof.Machine
end

