-- ==== Sys2Proof/Certificates/Slice0/Obligations.lean ====
section
/-! DEFINITION. The statements for the provers, each a sentence or a table of spec/, said of `exec`, `step` and the decoder.
Where a statement gives the whole next state as an update of `s`, every field not named keeps its value (00_scope.md R7). -/

namespace Sys2Proof.Claims

open Sys2Proof.Machine

/-! ### The spec's encoding formulas (95_test_vectors.md 2.1; the Encoding line of each instruction's rule) -/

/-- `0x1000 | op << 8 | A << 5 | B << 2`. -/
def rrCode (op : Nat) (a b : RegId) : Word := BitVec.ofNat 16 (0x1000 ||| op <<< 8 ||| a.val <<< 5 ||| b.val <<< 2)

/-- `0x5000 | op << 8 | A << 5 | imm5`. -/
def riCode (op : Nat) (a : RegId) (imm5 : BitVec 5) : Word :=
  BitVec.ofNat 16 (0x5000 ||| op <<< 8 ||| a.val <<< 5 ||| imm5.toNat)

/-- `0x8000 | D << 12 | CCCC << 8 | d8`. -/
def jumpCode (cc : Nat) (disp9 : BitVec 9) : Word :=
  BitVec.ofNat 16 (0x8000 ||| (disp9.toNat / 256) <<< 12 ||| cc <<< 8 ||| disp9.toNat % 256)

/-! ### Flags by exact arithmetic: the integers that the flags describe (R80, R81, R82) -/

/-- The flags of `l + r`: carry by the unsigned sum, overflow by the signed one (R80). -/
def exactAddFlags (l r : Word) : Flags :=
  { z := decide (l + r = 0#16)
    n := decide ((l + r).toInt < 0)
    c := decide (65536 ≤ l.toNat + r.toNat)
    v := decide (¬ (-32768 ≤ l.toInt + r.toInt ∧ l.toInt + r.toInt ≤ 32767)) }

/-- The flags of `l - r`: borrow by the unsigned comparison, overflow by the signed difference (R81). -/
def exactSubFlags (l r : Word) : Flags :=
  { z := decide (l = r)
    n := decide ((l - r).toInt < 0)
    c := decide (l.toNat < r.toNat)
    v := decide (¬ (-32768 ≤ l.toInt - r.toInt ∧ l.toInt - r.toInt ≤ 32767)) }

/-- The flags of a bitwise result in the state `s`: `C` and `V` are the free values of the next draw (R82, R14). -/
def bitwiseFlags (res : Word) (s : State) : Flags :=
  { z := decide (res = 0#16)
    n := decide (res.toInt < 0)
    c := Config.anyC s.draws
    v := Config.anyV s.draws }

/-! ### Next states -/

/-- `x[a] <- res`, the flags become `f`, `pc <- pc + 2`. -/
def arithState (a : RegId) (res : Word) (f : Flags) (s : State) : State :=
  { s.setReg a res with flags := f, pc := s.pc + 2#16 }

/-- The flags become `f`, `pc <- pc + 2`. -/
def compareState (f : Flags) (s : State) : State := { s with flags := f, pc := s.pc + 2#16 }

/-- `x[a] <- res` with the flags of a bitwise result; one draw is used. -/
def bitwiseState (a : RegId) (res : Word) (s : State) : State :=
  { s.setReg a res with flags := bitwiseFlags res s, pc := s.pc + 2#16, draws := s.draws + 1 }

/-- The flags of a bitwise result; one draw is used. -/
def testState (res : Word) (s : State) : State :=
  { s with flags := bitwiseFlags res s, pc := s.pc + 2#16, draws := s.draws + 1 }

/-- `x[a] <- v`, `pc <- pc + 2`. -/
def moveState (a : RegId) (v : Word) (s : State) : State := { s.setReg a v with pc := s.pc + 2#16 }

/-- `pc <- pc + 2` and nothing else. -/
def advanceState (s : State) : State := { s with pc := s.pc + 2#16 }

/-- `pc <- pc + sext_16(disp9)` if `taken`, else `pc <- pc + 2` (R130). -/
def jumpState (taken : Prop) [Decidable taken] (disp9 : BitVec 9) (s : State) : State :=
  { s with pc := if taken then s.pc + disp9.signExtend 16 else s.pc + 2#16 }

/-- The "`Cond` is true when" column of R132's table, row by row. -/
def tableCond (cc : BitVec 4) (f : Flags) : Prop :=
  match cc.toNat with
  | 0 => f.z = true
  | 1 => f.z = false
  | 2 => f.n = true
  | 3 => f.n = false
  | 4 => f.c = true
  | 5 => f.c = false
  | 6 => f.v = true
  | 7 => f.v = false
  | 8 => f.c = true ∨ f.z = true
  | 9 => f.c = false ∧ f.z = false
  | 10 => f.n ≠ f.v
  | 11 => f.n = f.v
  | 12 => f.z = true ∨ f.n ≠ f.v
  | 13 => f.z = false ∧ f.n = f.v
  | 14 => True
  | _ => False

/-- What LOAD of `addr` into `x[a]` answers in `s`, region by region (R111, R34, R36). -/
def LoadOutcome (a : RegId) (addr : Word) (s : State) (o : Host.Outcome State Fault Refusal) : Prop :=
  (addr[0] = true → o = .fault (.unalignedAccess addr s.pc)) ∧
  (addr[0] = false → memMap s.platform addr = .rom → o = .fault (.programMemoryAccess addr s.pc)) ∧
  (addr[0] = false → memMap s.platform addr = .none → o = .fault (.unmappedAccess addr s.pc)) ∧
  (addr[0] = false → memMap s.platform addr = .ram →
    o = .next (moveState a (Memory.readWord s.platform.dataOrder s.mem addr) s)) ∧
  (addr[0] = false → memMap s.platform addr = .io →
    o = .next { moveState a (Config.ioRead s.draws addr) s with
      ioLog := s.ioLog ++ [IoEvent.read addr (Config.ioRead s.draws addr)], draws := s.draws + 1 })

/-- What STORE of `v` to `addr` answers in `s`, region by region (R112, R34, R37). In RAM the two bytes at `addr` hold `v`
in the platform's order and no other byte changes. -/
def StoreOutcome (addr v : Word) (s : State) (o : Host.Outcome State Fault Refusal) : Prop :=
  (addr[0] = true → o = .fault (.unalignedAccess addr s.pc)) ∧
  (addr[0] = false → memMap s.platform addr = .rom → o = .fault (.programMemoryAccess addr s.pc)) ∧
  (addr[0] = false → memMap s.platform addr = .none → o = .fault (.unmappedAccess addr s.pc)) ∧
  (addr[0] = false → memMap s.platform addr = .ram →
    ∃ t, o = .next t ∧ t = { advanceState s with mem := t.mem } ∧
      Memory.readWord s.platform.dataOrder t.mem addr = v ∧
      ∀ x : Nat, x ≠ addr.toNat → x ≠ addr.toNat + 1 → Memory.read t.mem x = Memory.read s.mem x) ∧
  (addr[0] = false → memMap s.platform addr = .io →
    o = .next { advanceState s with ioLog := s.ioLog ++ [IoEvent.write addr v] })

/-! ### Frames -/

/-- Every general register but `a` keeps its value. -/
def KeepsRegsBut (a : RegId) (s t : State) : Prop := ∀ r, r ≠ a → t.reg r = s.reg r

/-- Every general register keeps its value. -/
def KeepsRegs (s t : State) : Prop := ∀ r, t.reg r = s.reg r

/-- The control registers and the platform's parameters keep their values. -/
def KeepsSpecials (s t : State) : Prop :=
  t.cpuid1 = s.cpuid1 ∧ t.cpuid2 = s.cpuid2 ∧ t.feat = s.feat ∧ t.platform = s.platform

/-- Every byte of memory keeps its value. -/
def KeepsMemory (s t : State) : Prop := ∀ x : Nat, Memory.read t.mem x = Memory.read s.mem x

/-- The instruction is CMP, SUB or one of their immediate forms, with left value `l` and right value `r` in `s`. -/
def Compares (i : Instr) (l r : Word) (s : State) : Prop :=
  ∃ a, l = s.reg a ∧
    ((∃ b, r = s.reg b ∧ (i = .cmpRR a b ∨ i = .subRR a b)) ∨
     (∃ imm5 : BitVec 5, r = imm5.signExtend 16 ∧ (i = .cmpRI a imm5.toInt ∨ i = .subRI a imm5.toInt)))

/-- The instruction is ADD, in either form, with left value `l` and right value `r` in `s`. -/
def Adds (i : Instr) (l r : Word) (s : State) : Prop :=
  ∃ a, l = s.reg a ∧
    ((∃ b, r = s.reg b ∧ i = .addRR a b) ∨ (∃ imm5 : BitVec 5, r = imm5.signExtend 16 ∧ i = .addRI a imm5.toInt))

end Sys2Proof.Claims

open Sys2Proof Sys2Proof.Machine Sys2Proof.Claims

/-! ### Encoding and decoding (30_encoding.md) -/

/-- A few words written out from the spec decode to their instructions, and reserved words to their classes -/
def Obligations.SpecWordsDecode : Prop :=
  decode 0x1028#16 = .ok (.addRR 1 2) ∧ decode 0x1BFC#16 = .ok (.storeRR 7 7) ∧
  decode 0x501F#16 = .ok (.addRI 0 (-1)) ∧ decode 0x581F#16 = .ok (.movzRI 0 31) ∧
  decode 0x5CFF#16 = .ok (.slo 7 31) ∧ decode 0x5E02#16 = .ok (.readcr 0 2) ∧
  decode 0x90FF#16 = .ok (.jz (-1)) ∧ decode 0x8F00#16 = .ok (.jnever 0) ∧
  decode 0x1C00#16 = .error .noTwoRegisterForm ∧ decode 0x1001#16 = .error .addressingMode ∧
  decode 0x5D00#16 = .error .opcode13 ∧ decode 0xA000#16 = .error .jumpSpace ∧
  decode 0xC000#16 = .error .variableLength ∧ decode 0x4000#16 = .error .operationSize

/-- Decoding the encoding of any well-formed instruction gives that instruction back -/
def Obligations.DecodeOfEncodeIsTheInstruction : Prop :=
  ∀ i : Instr, WellFormed i = true →
    decode (encode i) = .ok i ∧ decodeBytes (firstByte (encode i)) (secondByte (encode i)) = .ok i

/-- Every valid word is the encoding of the one well-formed instruction it decodes to -/
def Obligations.EncodeOfDecodeIsTheWord : Prop :=
  ∀ (w : Word) (i : Instr), decode w = .ok i → WellFormed i = true ∧ encode i = w

/-- A word is reserved, in the class the table gives, or valid, exactly by the nine conditions on its fields -/
def Obligations.ReservedClassesPartitionTheWords : Prop :=
  ∀ w : Word,
    (decode w = .error .variableLength ↔ w.extractLsb 15 14 = 0b11#2) ∧
    (decode w = .error .jumpSpace ↔ w.extractLsb 15 14 = 0b10#2 ∧ w[13] = true) ∧
    (decode w = .error .operationSize ↔ w[15] = false ∧ w.extractLsb 13 12 ≠ 0b01#2) ∧
    (decode w = .error .noTwoRegisterForm ↔ w.extractLsb 15 12 = 0b0001#4 ∧ w.extractLsb 11 10 = 0b11#2) ∧
    (decode w = .error .addressingMode ↔
      w.extractLsb 15 12 = 0b0001#4 ∧ w.extractLsb 11 10 ≠ 0b11#2 ∧ w.extractLsb 1 0 ≠ 0b00#2) ∧
    (decode w = .error .opcode13 ↔ w.extractLsb 15 12 = 0b0101#4 ∧ w.extractLsb 11 8 = 0b1101#4) ∧
    ((∃ i, decode w = .ok i) ↔
      (w.extractLsb 15 14 = 0b10#2 ∧ w[13] = false) ∨
      (w.extractLsb 15 12 = 0b0001#4 ∧ w.extractLsb 11 10 ≠ 0b11#2 ∧ w.extractLsb 1 0 = 0b00#2) ∨
      (w.extractLsb 15 12 = 0b0101#4 ∧ w.extractLsb 11 8 ≠ 0b1101#4))

/-! ### The step (60_exceptions.md R163, 20_memory.md R35) -/

/-- A step at an even pc in ROM whose two bytes decode to an instruction is exec of that instruction, with nothing around it -/
def Obligations.StepRunsTheDecodedInstruction : Prop :=
  ∀ (s : State) (i : Instr), s.pc[0] = false → memMap s.platform s.pc = .rom → memMap s.platform (s.pc + 1) = .rom →
    decodeBytes (Memory.read s.mem s.pc.toNat) (Memory.read s.mem (s.pc + 1).toNat) = .ok i → step s = exec i s

/-- Fetch faults at an odd pc, then outside program ROM, and else reads the byte at pc and the byte at pc+1.
The pseudocode of `Fetch` (R35); the fault at an odd pc is the spec's decision D6 and the fault outside ROM, for I/O and
unmapped addresses, D8 (log 11, DESIGN CHOICE); which byte lies at which address is D2 (log 8, DEDUCED). -/
def Obligations.FetchChecksAlignmentThenRegion : Prop :=
  ∀ s : State,
    (s.pc[0] = true → fetch s = .error (.fetchMisaligned s.pc)) ∧
    (s.pc[0] = false → (memMap s.platform s.pc ≠ .rom ∨ memMap s.platform (s.pc + 1) ≠ .rom) →
      fetch s = .error (.executeFromNonProgramMemory s.pc)) ∧
    (s.pc[0] = false → memMap s.platform s.pc = .rom → memMap s.platform (s.pc + 1) = .rom →
      ∃ w, fetch s = .ok w ∧ firstByte w = Memory.read s.mem s.pc.toNat ∧
        secondByte w = Memory.read s.mem (s.pc + 1).toNat)

/-- Executing a reserved word stops with ReservedInstruction, never as a no-op or a neighbouring instruction.
R63; that a model raises this fault where the source leaves the behaviour unspecified is the spec's decision D13 (log 11,
DESIGN CHOICE; log 14, DEDUCED). -/
def Obligations.ReservedWordsFault : Prop :=
  ∀ (s : State) (w : Word) (c : Reserved), fetch s = .ok w → decode w = .error c →
    step s = .fault (.reservedInstruction w c s.pc)

/-- A step faults with a given reason exactly when the spec gives that cause, in the order of checks of R163.
The order is the spec's decision D17; of R161's rows, the fetch at an odd pc (D6), the unmapped access and the fetch from I/O
or unmapped addresses (D8) are cases on which the source is silent. All are log 11 (DESIGN CHOICE). -/
def Obligations.FaultsAreExactlyTheSpecCauses : Prop :=
  ∀ (s : State) (f : Fault), step s = .fault f ↔ FaultCause s f

/-- Every instruction but LOAD, STORE, READCR and WRITECR completes in every state -/
def Obligations.OnlyMemoryAndControlInstructionsCanFault : Prop :=
  ∀ (i : Instr) (s : State), dataAddr i s = none → controlNumber i = none → ∃ t, exec i s = .next t

/-- The model refuses nothing: every step completes or stops with one of the spec faults -/
def Obligations.NoStepIsRefused : Prop :=
  ∀ (s : State) (q : Refusal), step s ≠ .refused q

/-! ### Start of execution (70_reset_and_hazards.md R180, 10_state.md R20) -/

/-- After reset pc is 0x8000, the control registers are zero, and the first instruction is the word placed at 0x8000 -/
def Obligations.ExecutionStartsAtRom8000 : Prop :=
  State.reset.pc = 0x8000#16 ∧ State.reset.cpuid1 = 0#16 ∧ State.reset.cpuid2 = 0#16 ∧ State.reset.feat = 0#16 ∧
    ∀ w : Word, fetch (State.reset.withFetchWord 16 w.toNat) = .ok w

/-! ### Flag functions (40_arith_logic.md R80, R81, R82) -/

/-- AddFlags gives the sum modulo 2^16, carry by the unsigned sum and overflow by the signed sum -/
def Obligations.AddFlagsAreExact : Prop :=
  ∀ l r : Word, addFlags l r = (l + r, exactAddFlags l r) ∧
    (addFlags l r).2.n = (l + r)[15] ∧ (addFlags l r).2.v = (l[15] == r[15] && (l + r)[15] != l[15])

/-- SubFlags gives the difference modulo 2^16, C the borrow, V the signed overflow, and the comparisons the conditions read.
R81; its `V` of a subtraction is derived and decided there (D23; log 12, DEDUCED), and the last three clauses are R81's
"Consequences", derived from that rule. -/
def Obligations.SubFlagsAreExact : Prop :=
  ∀ l r : Word, subFlags l r = (l - r, exactSubFlags l r) ∧
    (subFlags l r).2.n = (l - r)[15] ∧ (subFlags l r).2.v = (l[15] != r[15] && (l - r)[15] != l[15]) ∧
    ((subFlags l r).2.c || (subFlags l r).2.z) = decide (l.toNat ≤ r.toNat) ∧
    ((subFlags l r).2.n != (subFlags l r).2.v) = decide (l.toInt < r.toInt) ∧
    ((subFlags l r).2.z || ((subFlags l r).2.n != (subFlags l r).2.v)) = decide (l.toInt ≤ r.toInt)

/-! ### Arithmetic, compare and logic instructions (40_arith_logic.md) -/

/-- ADD completes with x[A] + B and the four flags of the addition, in both forms -/
def Obligations.AddResult : Prop :=
  ∀ (s : State) (a b : RegId) (imm5 : BitVec 5),
    decode (rrCode 0 a b) = .ok (.addRR a b) ∧ decode (riCode 0 a imm5) = .ok (.addRI a imm5.toInt) ∧
    exec (.addRR a b) s = .next (arithState a ((s.reg a) + (s.reg b)) (exactAddFlags (s.reg a) (s.reg b)) s) ∧
    exec (.addRI a imm5.toInt) s = .next (arithState a ((s.reg a) + (imm5.signExtend 16)) (exactAddFlags (s.reg a) (imm5.signExtend 16)) s)

/-- SUB completes with x[A] - B and the four flags of the subtraction, in both forms -/
def Obligations.SubResult : Prop :=
  ∀ (s : State) (a b : RegId) (imm5 : BitVec 5),
    decode (rrCode 1 a b) = .ok (.subRR a b) ∧ decode (riCode 1 a imm5) = .ok (.subRI a imm5.toInt) ∧
    exec (.subRR a b) s = .next (arithState a ((s.reg a) - (s.reg b)) (exactSubFlags (s.reg a) (s.reg b)) s) ∧
    exec (.subRI a imm5.toInt) s = .next (arithState a ((s.reg a) - (imm5.signExtend 16)) (exactSubFlags (s.reg a) (imm5.signExtend 16)) s)

/-- RSUB completes with B - x[A] and the four flags of that subtraction, in both forms -/
def Obligations.RsubResult : Prop :=
  ∀ (s : State) (a b : RegId) (imm5 : BitVec 5),
    decode (rrCode 2 a b) = .ok (.rsubRR a b) ∧ decode (riCode 2 a imm5) = .ok (.rsubRI a imm5.toInt) ∧
    exec (.rsubRR a b) s = .next (arithState a ((s.reg b) - (s.reg a)) (exactSubFlags (s.reg b) (s.reg a)) s) ∧
    exec (.rsubRI a imm5.toInt) s = .next (arithState a ((imm5.signExtend 16) - (s.reg a)) (exactSubFlags (imm5.signExtend 16) (s.reg a)) s)

/-- CMP completes with the flags of x[A] - B and writes no register, in both forms -/
def Obligations.CmpResult : Prop :=
  ∀ (s : State) (a b : RegId) (imm5 : BitVec 5),
    decode (rrCode 3 a b) = .ok (.cmpRR a b) ∧ decode (riCode 3 a imm5) = .ok (.cmpRI a imm5.toInt) ∧
    exec (.cmpRR a b) s = .next (compareState (exactSubFlags (s.reg a) (s.reg b)) s) ∧
    exec (.cmpRI a imm5.toInt) s = .next (compareState (exactSubFlags (s.reg a) (imm5.signExtend 16)) s)

/-- OR completes with x[A] | B, Z and N of it, C and V free, in both forms -/
def Obligations.OrResult : Prop :=
  ∀ (s : State) (a b : RegId) (imm5 : BitVec 5),
    decode (rrCode 4 a b) = .ok (.orRR a b) ∧ decode (riCode 4 a imm5) = .ok (.orRI a imm5.toInt) ∧
    exec (.orRR a b) s = .next (bitwiseState a ((s.reg a) ||| (s.reg b)) s) ∧
    exec (.orRI a imm5.toInt) s = .next (bitwiseState a ((s.reg a) ||| (imm5.signExtend 16)) s)

/-- XOR completes with x[A] ^ B, Z and N of it, C and V free, in both forms -/
def Obligations.XorResult : Prop :=
  ∀ (s : State) (a b : RegId) (imm5 : BitVec 5),
    decode (rrCode 5 a b) = .ok (.xorRR a b) ∧ decode (riCode 5 a imm5) = .ok (.xorRI a imm5.toInt) ∧
    exec (.xorRR a b) s = .next (bitwiseState a ((s.reg a) ^^^ (s.reg b)) s) ∧
    exec (.xorRI a imm5.toInt) s = .next (bitwiseState a ((s.reg a) ^^^ (imm5.signExtend 16)) s)

/-- AND completes with x[A] & B, Z and N of it, C and V free, in both forms -/
def Obligations.AndResult : Prop :=
  ∀ (s : State) (a b : RegId) (imm5 : BitVec 5),
    decode (rrCode 6 a b) = .ok (.andRR a b) ∧ decode (riCode 6 a imm5) = .ok (.andRI a imm5.toInt) ∧
    exec (.andRR a b) s = .next (bitwiseState a ((s.reg a) &&& (s.reg b)) s) ∧
    exec (.andRI a imm5.toInt) s = .next (bitwiseState a ((s.reg a) &&& (imm5.signExtend 16)) s)

/-- TEST completes with Z and N of x[A] & B, C and V free, and writes no register, in both forms -/
def Obligations.TestResult : Prop :=
  ∀ (s : State) (a b : RegId) (imm5 : BitVec 5),
    decode (rrCode 7 a b) = .ok (.testRR a b) ∧ decode (riCode 7 a imm5) = .ok (.testRI a imm5.toInt) ∧
    exec (.testRR a b) s = .next (testState ((s.reg a) &&& (s.reg b)) s) ∧
    exec (.testRI a imm5.toInt) s = .next (testState ((s.reg a) &&& (imm5.signExtend 16)) s)

/-- With one register as both operands, each two-register ALU instruction gives the result R93 lists.
R93 derives that both source values are read before the destination is written: "each operation is one assignment
`A ← f(A, B)`". -/
def Obligations.SameRegisterAsBothOperands : Prop :=
  ∀ (s : State) (a : RegId),
    (∃ t, exec (.addRR a a) s = .next t ∧ (t.reg a).toNat = 2 * (s.reg a).toNat % 65536) ∧
    (∃ t, exec (.subRR a a) s = .next t ∧ t.reg a = 0#16 ∧
      t.flags = { z := true, n := false, c := false, v := false }) ∧
    (∃ t, exec (.rsubRR a a) s = .next t ∧ t.reg a = 0#16 ∧
      t.flags = { z := true, n := false, c := false, v := false }) ∧
    (∃ t, exec (.cmpRR a a) s = .next t ∧ t.regs = s.regs ∧
      t.flags = { z := true, n := false, c := false, v := false }) ∧
    (∃ t, exec (.orRR a a) s = .next t ∧ t.regs = s.regs) ∧
    (∃ t, exec (.andRR a a) s = .next t ∧ t.regs = s.regs) ∧
    (∃ t, exec (.xorRR a a) s = .next t ∧ t.reg a = 0#16 ∧ t.flags.z = true ∧ t.flags.n = false) ∧
    (∃ t, exec (.testRR a a) s = .next t ∧ t.regs = s.regs ∧ t.flags.z = decide (s.reg a = 0#16) ∧
      t.flags.n = decide ((s.reg a).toInt < 0))

/-- NEG, NOT, NOP, HALT and MOVS: the words of their expansions, their effect and their flags.
R71 derives the expansions of NEG and NOT from R86; NOP and HALT are the spec's own names (D21) and HALT its end-of-run
convention (D19; log 13, DEDUCED); that a never-jump is a no-op here is D16 (log 14, DEDUCED). -/
def Obligations.NegNotNopAndHaltAreTheirExpansions : Prop :=
  ∀ (s : State) (a : RegId),
    decode (0x5200#16 ||| BitVec.ofNat 16 (a.val <<< 5)) = .ok (.rsubRI a 0) ∧
    exec (.rsubRI a 0) s = .next (arithState a (-(s.reg a))
      { z := decide (-(s.reg a) = 0#16), n := (-(s.reg a))[15], c := decide (s.reg a ≠ 0#16),
        v := decide (s.reg a = 0x8000#16) } s) ∧
    decode (0x521F#16 ||| BitVec.ofNat 16 (a.val <<< 5)) = .ok (.rsubRI a (-1)) ∧
    exec (.rsubRI a (-1)) s = .next (arithState a (~~~(s.reg a))
      { z := decide (~~~(s.reg a) = 0#16), n := (~~~(s.reg a))[15], c := false, v := false } s) ∧
    decode 0x8F00#16 = .ok (.jnever 0) ∧ exec (.jnever 0) s = .next (advanceState s) ∧
    decode 0x8E00#16 = .ok (.jmp 0) ∧ exec (.jmp 0) s = .next s ∧
    (∀ b : RegId, decode (rrCode 9 a b) = .ok (.movRR a b) ∧ exec (.movRR a b) s = .next (moveState a (s.reg b) s)) ∧
    (∀ imm5 : BitVec 5, decode (riCode 9 a imm5) = .ok (.movRI a imm5.toInt) ∧
      exec (.movRI a imm5.toInt) s = .next (moveState a (imm5.signExtend 16) s))

/-! ### Moves and constants (41_move_slo.md) -/

/-- MOVZ completes with the register or the zero-extended immediate, flags kept -/
def Obligations.MovzResult : Prop :=
  ∀ (s : State) (a b : RegId) (imm5 : BitVec 5),
    decode (rrCode 8 a b) = .ok (.movzRR a b) ∧ decode (riCode 8 a imm5) = .ok (.movzRI a imm5.toNat) ∧
    exec (.movzRR a b) s = .next (moveState a (s.reg b) s) ∧
    exec (.movzRI a imm5.toNat) s = .next (moveState a (imm5.setWidth 16) s)

/-- MOV completes with the register or the sign-extended immediate, flags kept -/
def Obligations.MovResult : Prop :=
  ∀ (s : State) (a b : RegId) (imm5 : BitVec 5),
    decode (rrCode 9 a b) = .ok (.movRR a b) ∧ decode (riCode 9 a imm5) = .ok (.movRI a imm5.toInt) ∧
    exec (.movRR a b) s = .next (moveState a (s.reg b) s) ∧
    exec (.movRI a imm5.toInt) s = .next (moveState a (imm5.signExtend 16) s)

/-- SLO completes with the low 11 bits of x[A] above the immediate, flags kept; it has no two-register form -/
def Obligations.SloResult : Prop :=
  ∀ (s : State) (a b : RegId) (imm5 : BitVec 5),
    decode (riCode 12 a imm5) = .ok (.slo a imm5.toNat) ∧ decode (rrCode 12 a b) = .error .noTwoRegisterForm ∧
    exec (.slo a imm5.toNat) s =
      .next (moveState a ((s.reg a).extractLsb' 0 11 ++ imm5 : BitVec (11 + 5)) s)

/-- MOVZ and MOV agree between registers and on immediates 0 to 15; all 512 never-jumps are no-ops; no such word is reserved.
R72, which is derived from the instruction rules; that every never-jump is a no-op here is D16 (log 14, DEDUCED). -/
def Obligations.WordsWithTheSameEffect : Prop :=
  ∀ s : State,
    (∀ a b : RegId, decode (rrCode 8 a b) = .ok (.movzRR a b) ∧ decode (rrCode 9 a b) = .ok (.movRR a b) ∧
      exec (.movzRR a b) s = exec (.movRR a b) s) ∧
    (∀ disp9 : BitVec 9, decode (jumpCode 15 disp9) = .ok (.jnever disp9.toInt) ∧
      exec (.jnever disp9.toInt) s = .next (advanceState s)) ∧
    (∀ (a : RegId) (imm5 : BitVec 5), imm5.toNat ≤ 15 →
      decode (riCode 8 a imm5) = .ok (.movzRI a imm5.toNat) ∧ decode (riCode 9 a imm5) = .ok (.movRI a imm5.toInt) ∧
      exec (.movzRI a imm5.toNat) s = exec (.movRI a imm5.toInt) s)

/-! ### Load and store (42_load_store.md) -/

/-- LOAD: the value from RAM or the device, or the fault of the address, in both addressing modes.
R111. Of the I/O clause, R111 and R39 (decision D9) say that the device's answer, an oracle draw, is what is loaded, and
95_test_vectors.md 2.7 that "the access is recorded"; the read event as it stands in the history is the model's choice (log 5,
DESIGN CHOICE), and so is the draw counter (log 7, DESIGN CHOICE). The unmapped case is the spec's decision D8, and all three
faults are log 11. -/
def Obligations.LoadOutcomes : Prop :=
  ∀ (s : State) (a b : RegId) (imm5 : BitVec 5),
    decode (rrCode 10 a b) = .ok (.loadRR a b) ∧ decode (riCode 10 a imm5) = .ok (.loadRI a imm5.toNat) ∧
    LoadOutcome a (s.reg b) s (exec (.loadRR a b) s) ∧
    LoadOutcome a (imm5.setWidth 16) s (exec (.loadRI a imm5.toNat) s)

/-- STORE: the datum into RAM or to the device, or the fault of the address, in both addressing modes -/
def Obligations.StoreOutcomes : Prop :=
  ∀ (s : State) (a b : RegId) (imm5 : BitVec 5),
    decode (rrCode 11 a b) = .ok (.storeRR a b) ∧ decode (riCode 11 a imm5) = .ok (.storeRI a imm5.toNat) ∧
    StoreOutcome (s.reg b) (s.reg a) s (exec (.storeRR a b) s) ∧
    StoreOutcome (imm5.setWidth 16) (s.reg a) s (exec (.storeRI a imm5.toNat) s)

/-- A LOAD after a STORE to the same RAM address gets the stored value, and other addresses keep their data -/
def Obligations.StoreThenLoadReturnsTheValue : Prop :=
  ∀ (s t : State) (a b c : RegId), memMap s.platform (s.reg b) = .ram → exec (.storeRR a b) s = .next t →
    exec (.loadRR c b) t = .next (moveState c (s.reg a) t) ∧
    ∀ addr : Word, addr[0] = false → addr ≠ s.reg b →
      Memory.readWord t.platform.dataOrder t.mem addr = Memory.readWord s.platform.dataOrder s.mem addr

/-- No instruction but STORE changes memory -/
def Obligations.OnlyStoresWriteMemory : Prop :=
  ∀ (i : Instr) (s t : State), (∀ a b, i ≠ .storeRR a b) → (∀ a n, i ≠ .storeRI a n) → exec i s = .next t →
    t.mem = s.mem

/-- Each completed I/O access adds exactly one event with its address to the history, and nothing else touches it.
R39 and D9 record stores only. That a LOAD adds an event as well is the model's choice (log 5, DESIGN CHOICE), in agreement with
95_test_vectors.md 2.7, where "the access is recorded" is said of a LOAD; the history is the model's own state (R19). -/
def Obligations.IoHistoryGrowsByExactlyTheAccess : Prop :=
  ∀ (i : Instr) (s t : State), exec i s = .next t →
    (∀ addr, dataAddr i s = some addr → memMap s.platform addr = .io →
      ∃ v, (t.ioLog = s.ioLog ++ [IoEvent.read addr v] ∧ ((∃ a b, i = .loadRR a b) ∨ ∃ a n, i = .loadRI a n)) ∨
        (t.ioLog = s.ioLog ++ [IoEvent.write addr v] ∧ ((∃ a b, i = .storeRR a b) ∨ ∃ a n, i = .storeRI a n))) ∧
    ((∀ addr, dataAddr i s = some addr → memMap s.platform addr ≠ .io) → t.ioLog = s.ioLog)

/-- On every platform ROM starts at 0x8000 and is contiguous to ROM_END, and the two bytes of an even pair share a region -/
def Obligations.MemoryMapHasTheSpecShape : Prop :=
  ∀ (p : Platform) (a : Word),
    memMap p 0x8000#16 = .rom ∧
    (a[0] = false → memMap p (a + 1) = memMap p a) ∧
    (memMap p a = .rom → 0x8000#16 ≤ a ∧ ∀ b : Word, 0x8000#16 ≤ b → b ≤ a → memMap p b = .rom) ∧
    (p.romEnd[0] = true → 0x8001#16 ≤ p.romEnd → (memMap p a = .rom ↔ 0x8000#16 ≤ a ∧ a ≤ p.romEnd))

/-! ### Control registers (43_control_registers.md, 10_state.md R15 to R17) -/

/-- READCR completes with CPUID1, CPUID2 or FEAT, each 0x0000 on this hardware, and faults for 3 to 31 -/
def Obligations.ReadcrResult : Prop :=
  ∀ (s : State) (a : RegId) (n : BitVec 5),
    decode (riCode 14 a n) = .ok (.readcr a n.toNat) ∧
    exec (.readcr a 0) s = .next (moveState a s.cpuid1 s) ∧
    exec (.readcr a 1) s = .next (moveState a s.cpuid2 s) ∧
    exec (.readcr a 2) s = .next (moveState a s.feat s) ∧
    (Inv s → n.toNat ≤ 2 → exec (.readcr a n.toNat) s = .next (moveState a 0x0000#16 s)) ∧
    (2 < n.toNat → exec (.readcr a n.toNat) s = .fault (.reservedControlRegister n.toNat s.pc))

/-- WRITECR to 0, 1, 2 only advances pc, whatever x[A] holds, and faults for 3 to 31 -/
def Obligations.WritecrResult : Prop :=
  ∀ (s : State) (a : RegId) (n : BitVec 5),
    decode (riCode 15 a n) = .ok (.writecr a n.toNat) ∧
    (n.toNat ≤ 2 → exec (.writecr a n.toNat) s = .next (advanceState s)) ∧
    (2 < n.toNat → exec (.writecr a n.toNat) s = .fault (.reservedControlRegister n.toNat s.pc))

/-- No step changes a control register or a parameter of the platform -/
def Obligations.ControlRegistersAndPlatformAreConstant : Prop :=
  ∀ s t : State, step s = .next t → KeepsSpecials s t

/-! ### Jumps (44_jumps.md) -/

/-- JZ, JNZ, JN, JNN, JC, JNC, JV, JNV jump by the displacement iff their one flag says so, and change only pc -/
def Obligations.JumpsOnOneFlag : Prop :=
  ∀ (s : State) (disp9 : BitVec 9),
    decode (jumpCode 0 disp9) = .ok (.jz disp9.toInt) ∧
    exec (.jz disp9.toInt) s = .next (jumpState (s.flags.z = true) disp9 s) ∧
    decode (jumpCode 1 disp9) = .ok (.jnz disp9.toInt) ∧
    exec (.jnz disp9.toInt) s = .next (jumpState (s.flags.z = false) disp9 s) ∧
    decode (jumpCode 2 disp9) = .ok (.jn disp9.toInt) ∧
    exec (.jn disp9.toInt) s = .next (jumpState (s.flags.n = true) disp9 s) ∧
    decode (jumpCode 3 disp9) = .ok (.jnn disp9.toInt) ∧
    exec (.jnn disp9.toInt) s = .next (jumpState (s.flags.n = false) disp9 s) ∧
    decode (jumpCode 4 disp9) = .ok (.jc disp9.toInt) ∧
    exec (.jc disp9.toInt) s = .next (jumpState (s.flags.c = true) disp9 s) ∧
    decode (jumpCode 5 disp9) = .ok (.jnc disp9.toInt) ∧
    exec (.jnc disp9.toInt) s = .next (jumpState (s.flags.c = false) disp9 s) ∧
    decode (jumpCode 6 disp9) = .ok (.jv disp9.toInt) ∧
    exec (.jv disp9.toInt) s = .next (jumpState (s.flags.v = true) disp9 s) ∧
    decode (jumpCode 7 disp9) = .ok (.jnv disp9.toInt) ∧
    exec (.jnv disp9.toInt) s = .next (jumpState (s.flags.v = false) disp9 s)

/-- JBE, JA, JL, JGE, JLE, JG, JMP, JNEVER jump by the displacement iff their condition holds, and change only pc -/
def Obligations.JumpsOnCombinedFlags : Prop :=
  ∀ (s : State) (disp9 : BitVec 9),
    decode (jumpCode 8 disp9) = .ok (.jbe disp9.toInt) ∧
    exec (.jbe disp9.toInt) s = .next (jumpState (s.flags.c = true ∨ s.flags.z = true) disp9 s) ∧
    decode (jumpCode 9 disp9) = .ok (.ja disp9.toInt) ∧
    exec (.ja disp9.toInt) s = .next (jumpState (s.flags.c = false ∧ s.flags.z = false) disp9 s) ∧
    decode (jumpCode 10 disp9) = .ok (.jl disp9.toInt) ∧
    exec (.jl disp9.toInt) s = .next (jumpState (s.flags.n ≠ s.flags.v) disp9 s) ∧
    decode (jumpCode 11 disp9) = .ok (.jge disp9.toInt) ∧
    exec (.jge disp9.toInt) s = .next (jumpState (s.flags.n = s.flags.v) disp9 s) ∧
    decode (jumpCode 12 disp9) = .ok (.jle disp9.toInt) ∧
    exec (.jle disp9.toInt) s = .next (jumpState (s.flags.z = true ∨ s.flags.n ≠ s.flags.v) disp9 s) ∧
    decode (jumpCode 13 disp9) = .ok (.jg disp9.toInt) ∧
    exec (.jg disp9.toInt) s = .next (jumpState (s.flags.z = false ∧ s.flags.n = s.flags.v) disp9 s) ∧
    decode (jumpCode 14 disp9) = .ok (.jmp disp9.toInt) ∧
    exec (.jmp disp9.toInt) s = .next (jumpState (True) disp9 s) ∧
    decode (jumpCode 15 disp9) = .ok (.jnever disp9.toInt) ∧
    exec (.jnever disp9.toInt) s = .next (jumpState (False) disp9 s)

/-- Flipping the low bit of the condition inverts the jump: one of the pair is taken and the other falls through -/
def Obligations.JumpConditionsComeInPairs : Prop :=
  ∀ (cc : BitVec 4) (disp9 : BitVec 9) (s : State), ∃ taken : Bool,
    exec (jumpInstr cc disp9) s = .next (jumpState (taken = true) disp9 s) ∧
    exec (jumpInstr (cc ^^^ 1#4) disp9) s = .next (jumpState (taken = false) disp9 s)

/-- After CMP or SUB, the ten comparison jumps are taken by the unsigned or signed comparison their names say -/
def Obligations.ComparisonJumpsCompare : Prop :=
  ∀ (i : Instr) (l r : Word) (s t : State) (disp9 : BitVec 9), Compares i l r s → exec i s = .next t →
    exec (.jz disp9.toInt) t = .next (jumpState (l = r) disp9 t) ∧
    exec (.jnz disp9.toInt) t = .next (jumpState (l ≠ r) disp9 t) ∧
    exec (.jc disp9.toInt) t = .next (jumpState (l.toNat < r.toNat) disp9 t) ∧
    exec (.jnc disp9.toInt) t = .next (jumpState (r.toNat ≤ l.toNat) disp9 t) ∧
    exec (.jbe disp9.toInt) t = .next (jumpState (l.toNat ≤ r.toNat) disp9 t) ∧
    exec (.ja disp9.toInt) t = .next (jumpState (r.toNat < l.toNat) disp9 t) ∧
    exec (.jl disp9.toInt) t = .next (jumpState (l.toInt < r.toInt) disp9 t) ∧
    exec (.jge disp9.toInt) t = .next (jumpState (r.toInt ≤ l.toInt) disp9 t) ∧
    exec (.jle disp9.toInt) t = .next (jumpState (l.toInt ≤ r.toInt) disp9 t) ∧
    exec (.jg disp9.toInt) t = .next (jumpState (r.toInt < l.toInt) disp9 t)

/-- After ADD, JC and JNC go by the unsigned sum, JV and JNV by the signed one, JZ, JNZ, JN and JNN by the 16-bit result.
R137's corner case of JC and R139's example of JV are two of its cases; it follows from R80, R84 and the jumps' rules. -/
def Obligations.JumpsAfterAnAddition : Prop :=
  ∀ (i : Instr) (l r : Word) (s t : State) (disp9 : BitVec 9), Adds i l r s → exec i s = .next t →
    exec (.jc disp9.toInt) t = .next (jumpState (65536 ≤ l.toNat + r.toNat) disp9 t) ∧
    exec (.jnc disp9.toInt) t = .next (jumpState (l.toNat + r.toNat < 65536) disp9 t) ∧
    exec (.jv disp9.toInt) t =
      .next (jumpState (l.toInt + r.toInt < -32768 ∨ 32767 < l.toInt + r.toInt) disp9 t) ∧
    exec (.jnv disp9.toInt) t =
      .next (jumpState (-32768 ≤ l.toInt + r.toInt ∧ l.toInt + r.toInt ≤ 32767) disp9 t) ∧
    exec (.jz disp9.toInt) t = .next (jumpState ((l.toNat + r.toNat) % 65536 = 0) disp9 t) ∧
    exec (.jnz disp9.toInt) t = .next (jumpState ((l.toNat + r.toNat) % 65536 ≠ 0) disp9 t) ∧
    exec (.jn disp9.toInt) t = .next (jumpState (32768 ≤ (l.toNat + r.toNat) % 65536) disp9 t) ∧
    exec (.jnn disp9.toInt) t = .next (jumpState ((l.toNat + r.toNat) % 65536 < 32768) disp9 t)

/-- A jump goes to its target iff its condition holds, else to pc + 2, and completes; a bad target faults at the next fetch.
R151; the fault at an odd pc is the spec's decision D6, the fault at a target in I/O or unmapped D8 (log 11, DESIGN CHOICE). -/
def Obligations.BadJumpTargetsFaultAtTheNextFetch : Prop :=
  ∀ (disp9 : BitVec 9) (s : State),
    (∀ cc : BitVec 4, ∃ t, exec (jumpInstr cc disp9) s = .next t ∧ t = { s with pc := t.pc } ∧
      (tableCond cc s.flags → t.pc = s.pc + disp9.signExtend 16) ∧
      (¬ tableCond cc s.flags → t.pc = s.pc + 2#16) ∧
      (tableCond cc s.flags → disp9[0] = true → s.pc[0] = false → t.pc[0] = true) ∧
      (t.pc[0] = true → step t = .fault (.fetchMisaligned t.pc)) ∧
      (t.pc[0] = false → memMap s.platform t.pc ≠ .rom → step t = .fault (.executeFromNonProgramMemory t.pc))) ∧
    (disp9[0] = true → s.pc[0] = false → ∃ t, exec (.jmp disp9.toInt) s = .next t ∧ t.pc[0] = true ∧
      step t = .fault (.fetchMisaligned (s.pc + disp9.signExtend 16)))

/-- All 512 never-jump words decode and only advance pc; the canonical no-op is 0x8F00 -/
def Obligations.EveryNeverJumpWordIsANop : Prop :=
  decode 0x8F00#16 = .ok (.jnever 0) ∧
  ∀ (w : Word) (s : State), w &&& 0xEF00#16 = 0x8F00#16 →
    ∃ d, decode w = .ok (.jnever d) ∧ exec (.jnever d) s = .next (advanceState s)

/-- Every completed instruction moves pc by 2, or, a jump whose condition holds, by its own displacement.
The last clause says that the second one covers every well-formed jump. The advance by 2 and the wrap are the spec's
decision D4, the unit and base of the displacement D5 (log 9, DEDUCED). -/
def Obligations.PcMovesByTwoOrByTheDisplacement : Prop :=
  ∀ (i : Instr) (s t : State), exec i s = .next t →
    (isJump i = false → t.pc = s.pc + 2#16) ∧
    (∀ (cc : BitVec 4) (disp9 : BitVec 9), i = jumpInstr cc disp9 →
      (tableCond cc s.flags → t.pc = s.pc + disp9.signExtend 16) ∧
      (¬ tableCond cc s.flags → t.pc = s.pc + 2#16)) ∧
    (isJump i = true → WellFormed i = true → ∃ (cc : BitVec 4) (disp9 : BitVec 9), i = jumpInstr cc disp9)

/-! ### Frames: what an instruction leaves unchanged -/

/-- ADD, SUB, RSUB change only x[A], the four flags and pc -/
def Obligations.ArithmeticFrame : Prop :=
  ∀ (i : Instr) (a : RegId) (s t : State),
    ((∃ b, i = .addRR a b ∨ i = .subRR a b ∨ i = .rsubRR a b) ∨
      (∃ imm, i = .addRI a imm ∨ i = .subRI a imm ∨ i = .rsubRI a imm)) → exec i s = .next t →
    KeepsRegsBut a s t ∧ KeepsSpecials s t ∧ KeepsMemory s t ∧ t.ioLog = s.ioLog ∧ t.draws = s.draws

/-- OR, XOR, AND change only x[A], the four flags and pc (and the model's draw counter) -/
def Obligations.BitwiseFrame : Prop :=
  ∀ (i : Instr) (a : RegId) (s t : State),
    ((∃ b, i = .orRR a b ∨ i = .xorRR a b ∨ i = .andRR a b) ∨
      (∃ imm, i = .orRI a imm ∨ i = .xorRI a imm ∨ i = .andRI a imm)) → exec i s = .next t →
    KeepsRegsBut a s t ∧ KeepsSpecials s t ∧ KeepsMemory s t ∧ t.ioLog = s.ioLog

/-- CMP and TEST change only the four flags and pc (and, TEST, the model's draw counter): no register -/
def Obligations.CompareAndTestFrame : Prop :=
  ∀ (i : Instr) (a : RegId) (s t : State),
    ((∃ b, i = .cmpRR a b ∨ i = .testRR a b) ∨ (∃ imm, i = .cmpRI a imm ∨ i = .testRI a imm)) → exec i s = .next t →
    KeepsRegs s t ∧ KeepsSpecials s t ∧ KeepsMemory s t ∧ t.ioLog = s.ioLog ∧
      (((∃ b, i = .cmpRR a b) ∨ (∃ imm, i = .cmpRI a imm)) → t.draws = s.draws) ∧
      (((∃ b, i = .testRR a b) ∨ (∃ imm, i = .testRI a imm)) → t.draws = s.draws + 1)

/-- MOVZ, MOV, SLO, READCR change only x[A] and pc: no flag -/
def Obligations.MoveFrame : Prop :=
  ∀ (i : Instr) (a : RegId) (s t : State),
    ((∃ b, i = .movzRR a b ∨ i = .movRR a b) ∨ (∃ imm, i = .movRI a imm) ∨
      (∃ n, i = .movzRI a n ∨ i = .slo a n ∨ i = .readcr a n)) → exec i s = .next t →
    KeepsRegsBut a s t ∧ t.flags = s.flags ∧ KeepsSpecials s t ∧ KeepsMemory s t ∧ t.ioLog = s.ioLog ∧ t.draws = s.draws

/-- LOAD changes only x[A] and pc (and, from I/O, the history and the draw counter): no flag, no base register, no memory.
The last clause, one draw and one read event more after a LOAD from I/O, is the model's choice (log 5 and log 7, DESIGN CHOICE):
R110, R111 and R113 do not say it, R39 says that the value is drawn, and 95_test_vectors.md 2.7 that "the access is recorded". -/
def Obligations.LoadFrame : Prop :=
  ∀ (i : Instr) (a : RegId) (s t : State),
    ((∃ b, i = .loadRR a b) ∨ (∃ n, i = .loadRI a n)) → exec i s = .next t →
    KeepsRegsBut a s t ∧ t.flags = s.flags ∧ KeepsSpecials s t ∧ KeepsMemory s t ∧
      ∀ addr : Word, dataAddr i s = some addr →
        (memMap s.platform addr ≠ .io → t.ioLog = s.ioLog ∧ t.draws = s.draws) ∧
        (memMap s.platform addr = .io → t.draws = s.draws + 1 ∧ ∃ v, t.ioLog = s.ioLog ++ [IoEvent.read addr v])

/-- STORE changes no register and no flag, and no byte of memory but the two at its address -/
def Obligations.StoreFrame : Prop :=
  ∀ (i : Instr) (a : RegId) (s t : State),
    ((∃ b, i = .storeRR a b) ∨ (∃ n, i = .storeRI a n)) → exec i s = .next t →
    KeepsRegs s t ∧ t.flags = s.flags ∧ KeepsSpecials s t ∧ t.draws = s.draws ∧
      ∀ addr : Word, dataAddr i s = some addr →
        (∀ x : Nat, x ≠ addr.toNat → x ≠ addr.toNat + 1 → Memory.read t.mem x = Memory.read s.mem x) ∧
        (memMap s.platform addr = .io → KeepsMemory s t) ∧ (memMap s.platform addr = .ram → t.ioLog = s.ioLog)

/-- WRITECR and the sixteen jumps change nothing but pc -/
def Obligations.WritecrAndJumpFrame : Prop :=
  ∀ (i : Instr) (s t : State), ((∃ a n, i = .writecr a n) ∨ isJump i = true) → exec i s = .next t →
    t = { s with pc := t.pc }

/-- Every one of the eight registers holds what is written to it, and writing one changes no other -/
def Obligations.RegisterFileHasNoHardwiredRegister : Prop :=
  ∀ (s : State) (a r : RegId) (v : Word), (s.setReg a v).reg r = if r = a then v else s.reg r

/-! ### Rules of the whole machine -/

/-- Every step keeps: canonical memory, never Z and N together, control registers 0, only aligned I/O events in the history.
The clause on the history is about the model's own state (R19), whose read events are the model's choice (log 5, DESIGN CHOICE). -/
def Obligations.EveryStepKeepsTheInvariant : Prop :=
  ∀ s t : State, Inv s → step s = .next t → Inv t

/-- The invariant holds at reset -/
def Obligations.ResetMeetsTheInvariant : Prop :=
  Inv State.reset

/-- A program cannot modify the instructions it executes: after any step every fetch reads what it read before.
R43, which is derived from R34: neither a store to program memory nor an execution from RAM has a specified behaviour. -/
def Obligations.NoStepChangesTheProgram : Prop :=
  ∀ s t : State, step s = .next t → ∀ p : Word, fetch (t.setPc p) = fetch (s.setPc p)

/-- No instruction reads pc: executed at another address, it has the same effect, with pc moved by the same distance.
The two executions agree on `C` and `V` after OR, XOR, AND, TEST and on a device's answer only because both make the draw of
the same number, the model's choice that log 7 and log 5 call unsafe for a claim that compares two executions (R14 and R39 draw
afresh each time); of everything else the spec's R12 and R181 say it. -/
def Obligations.ProgramsCannotObserveThePc : Prop :=
  ∀ (i : Instr) (s t : State) (p : Word), exec i s = .next t →
    exec i (s.setPc p) = .next (t.setPc (p + (t.pc - s.pc)))

/-- No instruction but a jump reads a flag, and no flag it leaves depends on the flags before, unless it keeps them all.
That `C` and `V` after OR, XOR, AND, TEST (and a device's answer) are the same in both executions is the model's choice, not the
spec's: both make the draw of the same number, which log 7 and log 5 call unsafe for a claim that compares two executions (R14
draws afresh each time, and U9 binds future extensions only). -/
def Obligations.OnlyJumpsReadTheFlags : Prop :=
  ∀ (i : Instr) (s t : State) (f : Flags), isJump i = false → exec i s = .next t →
    ∃ t', exec i (s.setFlags f) = .next t' ∧ t'.setFlags t.flags = t ∧
      (t'.flags = t.flags ∨ (t'.flags = f ∧ t.flags = s.flags))

/-- Two machines that differ only in data byte order take the same steps for ever: no program can tell.
They agree on `C` and `V` after OR, XOR, AND, TEST and on a device's answer only because both are at the same draw, the model's
choice that log 7 and log 5 call unsafe for a claim that compares two executions; of everything else R31 says it. -/
def Obligations.DataByteOrderCannotBeObserved : Prop :=
  ∀ s t : State, SameButByteOrder s t → OutcomesAgree SameButByteOrder (step s) (step t)

/-- At a JMP 0 the state is the state for ever after -/
def Obligations.HaltedStatesStayForEver : Prop :=
  ∀ s : State, AtEnd s → step s = .next s ∧ ∀ k, Sys2Proof.core.run k s = .next s
end

