-- ==== Sys2Proof/Laws/Decode.lean ====
section
/-! SUPPORT. The bits of the instruction words and of the fields, one lemma per format, and the two halves of a word.
Proofs about encodings go bit by bit through these. -/

namespace Sys2Proof

/-! ### Halves of a word -/

@[simp] theorem firstByte_insnOfBytes (b1 b2 : Byte) : firstByte (insnOfBytes b1 b2) = b1 :=
  BitVec.extractLsb'_append_eq_left (a := b1) (b := b2)

@[simp] theorem secondByte_insnOfBytes (b1 b2 : Byte) : secondByte (insnOfBytes b1 b2) = b2 :=
  BitVec.extractLsb'_append_eq_right (a := b1) (b := b2)

@[simp] theorem insnOfBytes_bytes (w : Word) : insnOfBytes (firstByte w) (secondByte w) = w := by
  have h := BitVec.extractLsb'_append_extractLsb'_eq_extractLsb' (x := w) (start₁ := 0) (len₁ := 8) (start₂ := 8)
    (len₂ := 8) (by decide)
  simpa [firstByte, secondByte, insnOfBytes] using h

/-! ### Bits of the three formats (R52) -/

theorem rrWord_getLsbD (op : BitVec 4) (a b : RegId) (k : Nat) :
    (rrWord op a b).getLsbD k =
      if k < 2 then false
      else if k < 5 then b.val.testBit (k - 2)
      else if k < 8 then a.val.testBit (k - 5)
      else if k < 12 then op.getLsbD (k - 8)
      else decide (k = 12) := by
  have h : rrWord op a b =
      (0b00#2 ++ 0b01#2 ++ op ++ (BitVec.ofFin a : BitVec 3) ++ (BitVec.ofFin b : BitVec 3) ++ 0b00#2 :
        BitVec (2 + 2 + 4 + 3 + 3 + 2)) := rfl
  rw [h]
  simp only [BitVec.getLsbD_append, BitVec.getLsbD_ofFin]
  by_cases hk : k < 16
  · interval_cases k <;> simp
  · simp only [show ¬ k < 2 by omega, show ¬ k < 5 by omega, show ¬ k < 8 by omega, show ¬ k < 12 by omega,
      show ¬ k - 2 < 3 by omega, show ¬ k - 2 - 3 < 3 by omega, show ¬ k - 2 - 3 - 3 < 4 by omega,
      show ¬ k - 2 - 3 - 3 - 4 < 2 by omega, show ¬ k = 12 by omega, if_false, decide_false]
    exact BitVec.getLsbD_of_ge _ _ (by omega)

theorem riWord_getLsbD (op : BitVec 4) (a : RegId) (imm5 : BitVec 5) (k : Nat) :
    (riWord op a imm5).getLsbD k =
      if k < 5 then imm5.getLsbD k
      else if k < 8 then a.val.testBit (k - 5)
      else if k < 12 then op.getLsbD (k - 8)
      else decide (k = 12 ∨ k = 14) := by
  have h : riWord op a imm5 =
      (0b01#2 ++ 0b01#2 ++ op ++ (BitVec.ofFin a : BitVec 3) ++ imm5 : BitVec (2 + 2 + 4 + 3 + 5)) := rfl
  rw [h]
  simp only [BitVec.getLsbD_append, BitVec.getLsbD_ofFin]
  by_cases hk : k < 16
  · interval_cases k <;> simp
  · simp only [show ¬ k < 5 by omega, show ¬ k < 8 by omega, show ¬ k < 12 by omega,
      show ¬ k - 5 < 3 by omega, show ¬ k - 5 - 3 < 4 by omega, show ¬ k - 5 - 3 - 4 < 2 by omega,
      show ¬ (k = 12 ∨ k = 14) by omega, if_false, decide_false]
    exact BitVec.getLsbD_of_ge _ _ (by omega)

theorem jumpWord_getLsbD (cc : BitVec 4) (disp9 : BitVec 9) (k : Nat) :
    (jumpWord cc disp9).getLsbD k =
      if k < 8 then disp9.getLsbD k
      else if k < 12 then cc.getLsbD (k - 8)
      else if k = 12 then disp9.getLsbD 8
      else decide (k = 15) := by
  have h : jumpWord cc disp9 =
      (0b10#2 ++ 0b0#1 ++ disp9.extractLsb' 8 1 ++ cc ++ disp9.extractLsb' 0 8 : BitVec (2 + 1 + 1 + 4 + 8)) := rfl
  rw [h]
  simp only [BitVec.getLsbD_append, BitVec.getLsbD_extractLsb']
  by_cases hk : k < 16
  · interval_cases k <;> simp
  · simp only [show ¬ k < 8 by omega, show ¬ k < 12 by omega, show ¬ k = 12 by omega,
      show ¬ k - 8 < 4 by omega, show ¬ k - 8 - 4 < 1 by omega, show ¬ k - 8 - 4 - 1 < 1 by omega,
      show ¬ k = 15 by omega, if_false, decide_false]
    exact BitVec.getLsbD_of_ge _ _ (by omega)

/-- The bits of the displacement field (R61). -/
theorem dispField_getLsbD (w : Word) (k : Nat) :
    (dispField w).getLsbD k = if k < 8 then w.getLsbD k else (decide (k = 8) && w.getLsbD 12) := by
  have h : dispField w = (w.extractLsb' 12 1 ++ w.extractLsb' 0 8 : BitVec (1 + 8)) := rfl
  rw [h]
  simp only [BitVec.getLsbD_append, BitVec.getLsbD_extractLsb']
  by_cases hk : k < 8
  · simp [hk]
  · by_cases h8 : k = 8
    · subst h8; simp
    · simp [hk, h8, show ¬ k - 8 = 0 by omega]

end Sys2Proof
end

