-- ==== Sys2Proof/Laws/State.lean ====
section
/-! SUPPORT. Every field after every update of the state, and the register file's two laws. -/

namespace Sys2Proof.Machine

/-! ### setReg -/

@[simp] theorem State.setReg_pc (s : State) (r : RegId) (v : Word) : (s.setReg r v).pc = s.pc := rfl
@[simp] theorem State.setReg_flags (s : State) (r : RegId) (v : Word) : (s.setReg r v).flags = s.flags := rfl
@[simp] theorem State.setReg_cpuid1 (s : State) (r : RegId) (v : Word) : (s.setReg r v).cpuid1 = s.cpuid1 := rfl
@[simp] theorem State.setReg_cpuid2 (s : State) (r : RegId) (v : Word) : (s.setReg r v).cpuid2 = s.cpuid2 := rfl
@[simp] theorem State.setReg_feat (s : State) (r : RegId) (v : Word) : (s.setReg r v).feat = s.feat := rfl
@[simp] theorem State.setReg_mem (s : State) (r : RegId) (v : Word) : (s.setReg r v).mem = s.mem := rfl
@[simp] theorem State.setReg_platform (s : State) (r : RegId) (v : Word) : (s.setReg r v).platform = s.platform := rfl
@[simp] theorem State.setReg_ioLog (s : State) (r : RegId) (v : Word) : (s.setReg r v).ioLog = s.ioLog := rfl
@[simp] theorem State.setReg_draws (s : State) (r : RegId) (v : Word) : (s.setReg r v).draws = s.draws := rfl
@[simp] theorem State.setReg_regs (s : State) (r : RegId) (v : Word) : (s.setReg r v).regs = s.regs.set r.val v r.isLt := rfl

/-! ### setFlags -/

@[simp] theorem State.setFlags_pc (s : State) (f : Flags) : (s.setFlags f).pc = s.pc := rfl
@[simp] theorem State.setFlags_flags (s : State) (f : Flags) : (s.setFlags f).flags = f := rfl
@[simp] theorem State.setFlags_cpuid1 (s : State) (f : Flags) : (s.setFlags f).cpuid1 = s.cpuid1 := rfl
@[simp] theorem State.setFlags_cpuid2 (s : State) (f : Flags) : (s.setFlags f).cpuid2 = s.cpuid2 := rfl
@[simp] theorem State.setFlags_feat (s : State) (f : Flags) : (s.setFlags f).feat = s.feat := rfl
@[simp] theorem State.setFlags_mem (s : State) (f : Flags) : (s.setFlags f).mem = s.mem := rfl
@[simp] theorem State.setFlags_platform (s : State) (f : Flags) : (s.setFlags f).platform = s.platform := rfl
@[simp] theorem State.setFlags_ioLog (s : State) (f : Flags) : (s.setFlags f).ioLog = s.ioLog := rfl
@[simp] theorem State.setFlags_draws (s : State) (f : Flags) : (s.setFlags f).draws = s.draws := rfl
@[simp] theorem State.setFlags_regs (s : State) (f : Flags) : (s.setFlags f).regs = s.regs := rfl

/-! ### setPc -/

@[simp] theorem State.setPc_pc (s : State) (p : Word) : (s.setPc p).pc = p := rfl
@[simp] theorem State.setPc_flags (s : State) (p : Word) : (s.setPc p).flags = s.flags := rfl
@[simp] theorem State.setPc_cpuid1 (s : State) (p : Word) : (s.setPc p).cpuid1 = s.cpuid1 := rfl
@[simp] theorem State.setPc_cpuid2 (s : State) (p : Word) : (s.setPc p).cpuid2 = s.cpuid2 := rfl
@[simp] theorem State.setPc_feat (s : State) (p : Word) : (s.setPc p).feat = s.feat := rfl
@[simp] theorem State.setPc_mem (s : State) (p : Word) : (s.setPc p).mem = s.mem := rfl
@[simp] theorem State.setPc_platform (s : State) (p : Word) : (s.setPc p).platform = s.platform := rfl
@[simp] theorem State.setPc_ioLog (s : State) (p : Word) : (s.setPc p).ioLog = s.ioLog := rfl
@[simp] theorem State.setPc_draws (s : State) (p : Word) : (s.setPc p).draws = s.draws := rfl
@[simp] theorem State.setPc_regs (s : State) (p : Word) : (s.setPc p).regs = s.regs := rfl

/-! ### advance -/

@[simp] theorem State.advance_pc (s : State) : s.advance.pc = s.pc + 2#16 := rfl
@[simp] theorem State.advance_flags (s : State) : s.advance.flags = s.flags := rfl
@[simp] theorem State.advance_cpuid1 (s : State) : s.advance.cpuid1 = s.cpuid1 := rfl
@[simp] theorem State.advance_cpuid2 (s : State) : s.advance.cpuid2 = s.cpuid2 := rfl
@[simp] theorem State.advance_feat (s : State) : s.advance.feat = s.feat := rfl
@[simp] theorem State.advance_mem (s : State) : s.advance.mem = s.mem := rfl
@[simp] theorem State.advance_platform (s : State) : s.advance.platform = s.platform := rfl
@[simp] theorem State.advance_ioLog (s : State) : s.advance.ioLog = s.ioLog := rfl
@[simp] theorem State.advance_draws (s : State) : s.advance.draws = s.draws := rfl
@[simp] theorem State.advance_regs (s : State) : s.advance.regs = s.regs := rfl

/-! ### drawn -/

@[simp] theorem State.drawn_pc (s : State) : s.drawn.pc = s.pc := rfl
@[simp] theorem State.drawn_flags (s : State) : s.drawn.flags = s.flags := rfl
@[simp] theorem State.drawn_cpuid1 (s : State) : s.drawn.cpuid1 = s.cpuid1 := rfl
@[simp] theorem State.drawn_cpuid2 (s : State) : s.drawn.cpuid2 = s.cpuid2 := rfl
@[simp] theorem State.drawn_feat (s : State) : s.drawn.feat = s.feat := rfl
@[simp] theorem State.drawn_mem (s : State) : s.drawn.mem = s.mem := rfl
@[simp] theorem State.drawn_platform (s : State) : s.drawn.platform = s.platform := rfl
@[simp] theorem State.drawn_ioLog (s : State) : s.drawn.ioLog = s.ioLog := rfl
@[simp] theorem State.drawn_draws (s : State) : s.drawn.draws = s.draws + 1 := rfl
@[simp] theorem State.drawn_regs (s : State) : s.drawn.regs = s.regs := rfl

/-! ### I/O -/

@[simp] theorem ioWrite_pc (addr v : Word) (s : State) : (ioWrite addr v s).pc = s.pc := rfl
@[simp] theorem ioWrite_flags (addr v : Word) (s : State) : (ioWrite addr v s).flags = s.flags := rfl
@[simp] theorem ioWrite_cpuid1 (addr v : Word) (s : State) : (ioWrite addr v s).cpuid1 = s.cpuid1 := rfl
@[simp] theorem ioWrite_cpuid2 (addr v : Word) (s : State) : (ioWrite addr v s).cpuid2 = s.cpuid2 := rfl
@[simp] theorem ioWrite_feat (addr v : Word) (s : State) : (ioWrite addr v s).feat = s.feat := rfl
@[simp] theorem ioWrite_mem (addr v : Word) (s : State) : (ioWrite addr v s).mem = s.mem := rfl
@[simp] theorem ioWrite_platform (addr v : Word) (s : State) : (ioWrite addr v s).platform = s.platform := rfl
@[simp] theorem ioWrite_ioLog (addr v : Word) (s : State) : (ioWrite addr v s).ioLog = s.ioLog ++ [IoEvent.write addr v] := rfl
@[simp] theorem ioWrite_draws (addr v : Word) (s : State) : (ioWrite addr v s).draws = s.draws := rfl
@[simp] theorem ioWrite_regs (addr v : Word) (s : State) : (ioWrite addr v s).regs = s.regs := rfl

@[simp] theorem ioRead_value (addr : Word) (s : State) : (ioRead addr s).1 = Config.ioRead s.draws addr := rfl
@[simp] theorem ioRead_pc (addr : Word) (s : State) : (ioRead addr s).2.pc = s.pc := rfl
@[simp] theorem ioRead_flags (addr : Word) (s : State) : (ioRead addr s).2.flags = s.flags := rfl
@[simp] theorem ioRead_cpuid1 (addr : Word) (s : State) : (ioRead addr s).2.cpuid1 = s.cpuid1 := rfl
@[simp] theorem ioRead_cpuid2 (addr : Word) (s : State) : (ioRead addr s).2.cpuid2 = s.cpuid2 := rfl
@[simp] theorem ioRead_feat (addr : Word) (s : State) : (ioRead addr s).2.feat = s.feat := rfl
@[simp] theorem ioRead_mem (addr : Word) (s : State) : (ioRead addr s).2.mem = s.mem := rfl
@[simp] theorem ioRead_platform (addr : Word) (s : State) : (ioRead addr s).2.platform = s.platform := rfl
@[simp] theorem ioRead_ioLog (addr : Word) (s : State) : (ioRead addr s).2.ioLog = s.ioLog ++ [IoEvent.read addr (Config.ioRead s.draws addr)] := rfl
@[simp] theorem ioRead_draws (addr : Word) (s : State) : (ioRead addr s).2.draws = s.draws + 1 := rfl
@[simp] theorem ioRead_regs (addr : Word) (s : State) : (ioRead addr s).2.regs = s.regs := rfl

/-! ### Registers -/

theorem State.reg_eq (s : State) (r : RegId) : s.reg r = s.regs[r.val] := rfl

@[simp] theorem State.reg_setReg_self (s : State) (r : RegId) (v : Word) : (s.setReg r v).reg r = v := by
  simp [State.reg_eq]

@[simp] theorem State.reg_setReg_of_ne (s : State) {a r : RegId} (v : Word) (h : r ≠ a) :
    (s.setReg a v).reg r = s.reg r := by
  have hv : a.val ≠ r.val := fun e => h (Fin.ext e.symm)
  simp [State.reg_eq, hv]

@[simp] theorem State.reg_setFlags (s : State) (f : Flags) (r : RegId) : (s.setFlags f).reg r = s.reg r := rfl
@[simp] theorem State.reg_setPc (s : State) (p : Word) (r : RegId) : (s.setPc p).reg r = s.reg r := rfl
@[simp] theorem State.reg_advance (s : State) (r : RegId) : s.advance.reg r = s.reg r := rfl
@[simp] theorem State.reg_drawn (s : State) (r : RegId) : s.drawn.reg r = s.reg r := rfl
@[simp] theorem ioWrite_reg (addr v : Word) (s : State) (r : RegId) : (ioWrite addr v s).reg r = s.reg r := rfl
@[simp] theorem ioRead_reg (addr : Word) (s : State) (r : RegId) : (ioRead addr s).2.reg r = s.reg r := rfl

end Sys2Proof.Machine
end

