-- ==== Sys2Proof/Laws/Memory.lean ====
section
/-! SUPPORT. The laws of memory: a read after a write, and that every operation keeps the canonical form. -/

namespace Sys2Proof.Machine

/-! ### Reading after an update; no canonical form is needed -/

theorem Memory.read_erase (m : List Host.Cell) (a x : Nat) :
    Memory.read (Memory.erase m a) x = if x = a then Config.unlistedByte else Memory.read m x := by
  induction m with
  | nil => simp [Memory.erase, Memory.read]
  | cons cell rest ih =>
    obtain ⟨k, b⟩ := cell
    by_cases hk : k = a
    · subst hk
      simp only [Memory.erase, if_true, ih, Memory.read]
      split
      · rfl
      · rw [if_neg (by omega)]
    · simp only [Memory.erase, if_neg hk, Memory.read, ih]
      by_cases hx : k = x
      · subst hx; simp [hk]
      · simp [hx]

theorem Memory.read_insert (m : List Host.Cell) (a : Nat) (v : Byte) (x : Nat)
    (h : Memory.read m a = Config.unlistedByte) (ha : ∀ c ∈ m, c.1 ≠ a) :
    Memory.read (Memory.insert m a v) x = if x = a then v else Memory.read m x := by
  induction m with
  | nil => simp [Memory.insert, Memory.read, eq_comm]
  | cons cell rest ih =>
    obtain ⟨k, b⟩ := cell
    have hk : k ≠ a := ha (k, b) (by simp)
    have hr : Memory.read rest a = Config.unlistedByte := by simpa [Memory.read, hk] using h
    have ih' := ih hr fun c hc => ha c (by simp [hc])
    simp only [Memory.insert]
    split
    · simp [Memory.read, eq_comm]
    · simp only [Memory.read, ih']
      by_cases hx : k = x
      · subst hx; simp [hk]
      · simp [hx]

theorem Memory.not_mem_erase (m : List Host.Cell) (a : Nat) : ∀ c ∈ Memory.erase m a, c.1 ≠ a := by
  induction m with
  | nil => simp [Memory.erase]
  | cons cell rest ih =>
    obtain ⟨k, b⟩ := cell
    by_cases hk : k = a
    · simpa [Memory.erase, hk] using ih
    · simp only [Memory.erase, if_neg hk, List.mem_cons]
      rintro c (rfl | hc)
      · exact hk
      · exact ih c hc

/-- What a write changes, and that it changes nothing else. -/
theorem Memory.read_write (m : List Host.Cell) (a : Nat) (v : Byte) (x : Nat) :
    Memory.read (Memory.write m a v) x = if x = a then v else Memory.read m x := by
  unfold Memory.write
  split
  · next h => simp [Memory.read_erase, h]
  · rw [Memory.read_insert _ _ _ _ (by simp [Memory.read_erase]) (Memory.not_mem_erase m a), Memory.read_erase]
    split <;> rfl

/-! ### The canonical form -/

theorem Memory.rising_of_le {m : List Host.Cell} {low low' : Nat} (h : Memory.rising low m = true) (hl : low' ≤ low) :
    Memory.rising low' m = true := by
  cases m with
  | nil => rfl
  | cons cell rest =>
    simp only [Memory.rising, Bool.and_eq_true, decide_eq_true_eq] at h ⊢
    exact ⟨by omega, h.2⟩

theorem Memory.rising_erase {m : List Host.Cell} {low : Nat} (a : Nat) (h : Memory.rising low m = true) :
    Memory.rising low (Memory.erase m a) = true := by
  induction m generalizing low with
  | nil => rfl
  | cons cell rest ih =>
    obtain ⟨k, b⟩ := cell
    simp only [Memory.rising, Bool.and_eq_true, decide_eq_true_eq] at h
    by_cases hk : k = a
    · simpa [Memory.erase, hk] using ih (Memory.rising_of_le h.2 (by omega))
    · simp [Memory.erase, if_neg hk, Memory.rising, h.1, ih h.2]

theorem Memory.rising_insert {m : List Host.Cell} {low : Nat} (a : Nat) (v : Byte) (h : Memory.rising low m = true)
    (hl : low < a) (ha : ∀ c ∈ m, c.1 ≠ a) : Memory.rising low (Memory.insert m a v) = true := by
  induction m generalizing low with
  | nil => simp [Memory.insert, Memory.rising, hl]
  | cons cell rest ih =>
    obtain ⟨k, b⟩ := cell
    have hk : k ≠ a := ha (k, b) (by simp)
    simp only [Memory.rising, Bool.and_eq_true, decide_eq_true_eq] at h
    simp only [Memory.insert]
    split
    · next hlt => simp [Memory.rising, hl, hlt, h.2]
    · next hlt => simp [Memory.rising, h.1, ih h.2 (by omega) fun c hc => ha c (by simp [hc])]

/-- Addresses below which nothing is listed, as one bound less than the first address: `rising` from the left end. -/
theorem Memory.wf_iff (m : List Host.Cell) :
    Memory.wf m = true ↔
      Memory.rising 0 (m.map fun c => (c.1 + 1, c.2)) = true ∧
        ∀ c ∈ m, c.1 < 2 ^ 16 ∧ c.2 ≠ Config.unlistedByte := by
  have shift : ∀ (m : List Host.Cell) (low : Nat),
      Memory.rising (low + 1) (m.map fun c => (c.1 + 1, c.2)) = Memory.rising low m := by
    intro m
    induction m with
    | nil => intro low; rfl
    | cons cell rest ih => intro low; simp [Memory.rising, ih]
  cases m with
  | nil => simp [Memory.wf, Memory.rising]
  | cons cell rest => simp [Memory.wf, Memory.rising, shift]

theorem Memory.erase_map_succ (m : List Host.Cell) (a : Nat) :
    (Memory.erase m a).map (fun c : Host.Cell => ((c.1 + 1, c.2) : Host.Cell)) =
      Memory.erase (m.map fun c => (c.1 + 1, c.2)) (a + 1) := by
  induction m with
  | nil => rfl
  | cons cell rest ih =>
    obtain ⟨k, b⟩ := cell
    by_cases hk : k = a
    · simp [Memory.erase, hk, ih]
    · simp [Memory.erase, hk, ih]

theorem Memory.insert_map_succ (m : List Host.Cell) (a : Nat) (v : Byte) :
    (Memory.insert m a v).map (fun c : Host.Cell => ((c.1 + 1, c.2) : Host.Cell)) =
      Memory.insert (m.map fun c => (c.1 + 1, c.2)) (a + 1) v := by
  induction m with
  | nil => rfl
  | cons cell rest ih =>
    obtain ⟨k, b⟩ := cell
    by_cases hk : a < k
    · simp [Memory.insert, hk]
    · simp [Memory.insert, hk, ih]

theorem Memory.mem_of_mem_erase {m : List Host.Cell} {a : Nat} {c : Host.Cell} (h : c ∈ Memory.erase m a) : c ∈ m := by
  induction m with
  | nil => simp [Memory.erase] at h
  | cons cell rest ih =>
    obtain ⟨k, b⟩ := cell
    by_cases hk : k = a
    · rw [Memory.erase, if_pos hk] at h
      exact List.mem_cons_of_mem _ (ih h)
    · rw [Memory.erase, if_neg hk, List.mem_cons] at h
      exact List.mem_cons.2 (h.imp id ih)

theorem Memory.mem_of_mem_insert {m : List Host.Cell} {a : Nat} {v : Byte} {c : Host.Cell}
    (h : c ∈ Memory.insert m a v) : c = (a, v) ∨ c ∈ m := by
  induction m with
  | nil => simpa [Memory.insert] using h
  | cons cell rest ih =>
    obtain ⟨k, b⟩ := cell
    rw [Memory.insert] at h
    split at h
    · simpa using h
    · rcases List.mem_cons.1 h with rfl | h
      · simp
      · exact (ih h).imp id (List.mem_cons_of_mem _)

/-- Writing one byte keeps the canonical form. -/
theorem Memory.write_wf {m : List Host.Cell} {a : Nat} (v : Byte) (h : Memory.wf m = true) (ha : a < 2 ^ 16) :
    Memory.wf (Memory.write m a v) = true := by
  rw [Memory.wf_iff] at h ⊢
  have hcells : ∀ c ∈ Memory.erase m a, c.1 < 2 ^ 16 ∧ c.2 ≠ Config.unlistedByte :=
    fun c hc => h.2 c (Memory.mem_of_mem_erase hc)
  have hrise := Memory.rising_erase (a + 1) h.1
  rw [← Memory.erase_map_succ] at hrise
  unfold Memory.write
  split
  · exact ⟨hrise, hcells⟩
  · next hv =>
    refine ⟨?_, fun c hc => ?_⟩
    · rw [Memory.insert_map_succ]
      refine Memory.rising_insert _ _ hrise (by omega) fun c hc => ?_
      obtain ⟨c', hc', rfl⟩ := List.mem_map.1 hc
      have := Memory.not_mem_erase m a c' hc'
      simpa using this
    · rcases Memory.mem_of_mem_insert hc with rfl | hc
      · exact ⟨ha, hv⟩
      · exact hcells c hc

/-- Writing a 16-bit datum keeps the canonical form. -/
theorem Memory.writeWord_wf {m : List Host.Cell} (order : ByteOrder) (addr v : Word) (h : Memory.wf m = true) :
    Memory.wf (Memory.writeWord order m addr v) = true := by
  cases order <;>
    exact Memory.write_wf _ (Memory.write_wf _ h (BitVec.isLt addr)) (BitVec.isLt (addr + 1))

/-- What a 16-bit write leaves at each byte address: its two bytes at `addr` and `addr + 1`, the rest as before. -/
theorem Memory.read_writeWord (order : ByteOrder) (m : List Host.Cell) (addr v : Word) (x : Nat) :
    Memory.read (Memory.writeWord order m addr v) x =
      if x = (addr + 1).toNat then (match order with | .little => firstByte v | .big => secondByte v)
      else if x = addr.toNat then (match order with | .little => secondByte v | .big => firstByte v)
      else Memory.read m x := by
  cases order <;> simp [Memory.writeWord, Memory.read_write]

/-- The reset state's memory is in canonical form. -/
theorem State.reset_mem_wf : Memory.wf State.reset.mem = true := rfl

end Sys2Proof.Machine
end

