-- ==== Sys2Proof/Laws/Ops.lean ====
section
/-! SUPPORT. One lemma per shared operation: everything it can do. Proofs cite these and unfold none of the operations. -/

namespace Sys2Proof.Machine

variable {s t : State} {addr v w : Word} {n : Nat} {f : Fault}

/-! ### The memory map -/

/-- The even address of a pair, as a number. -/
theorem evenAddr_toNat (a : Word) : (evenAddr a).toNat = a.toNat / 2 * 2 := by
  have h : evenAddr a = a >>> 1 <<< 1 := by
    apply BitVec.eq_of_getLsbD_eq
    intro k hk
    unfold evenAddr
    interval_cases k <;> simp
  rw [h, BitVec.toNat_shiftLeft, BitVec.toNat_ushiftRight, Nat.shiftRight_eq_div_pow, Nat.shiftLeft_eq]
  have := a.isLt
  omega

/-- `addr[0]` is the parity of the address. -/
theorem addr_bit_zero (a : Word) : a[0] = decide (a.toNat % 2 = 1) := by
  rw [← BitVec.getLsbD_eq_getElem, BitVec.getLsbD, Nat.testBit_zero]

/-- The byte after an even address, as a number: the addition does not wrap. -/
theorem even_add_one_toNat {a : Word} (h : a[0] = false) : (a + 1).toNat = a.toNat + 1 := by
  rw [addr_bit_zero, decide_eq_false_iff_not] at h
  rw [BitVec.toNat_add, show (1 : Word).toNat = 1 from rfl]
  have := a.isLt
  omega

/-- The two bytes of an even pair have one region (D7). -/
theorem memMap_add_one (p : Platform) {a : Word} (h : a[0] = false) : memMap p (a + 1) = memMap p a := by
  have e : evenAddr (a + 1) = evenAddr a := by
    apply BitVec.eq_of_toNat_eq
    rw [evenAddr_toNat, evenAddr_toNat, even_add_one_toNat h]
    rw [addr_bit_zero, decide_eq_false_iff_not] at h
    omega
  simp only [memMap, e]

/-- A datum in terms of the two bytes at its address. -/
theorem Memory.readWord_eq (o : ByteOrder) (m : List Host.Cell) (a : Word) :
    Memory.readWord o m a =
      match o with
      | .little => insnOfBytes (Memory.read m (a + 1).toNat) (Memory.read m a.toNat)
      | .big => insnOfBytes (Memory.read m a.toNat) (Memory.read m (a + 1).toNat) := by
  cases o <;> rfl

/-- A datum reads back as it was written. -/
theorem Memory.readWord_writeWord (o : ByteOrder) (m : List Host.Cell) {a : Word} (v : Word) (h : a[0] = false) :
    Memory.readWord o (Memory.writeWord o m a v) a = v := by
  rw [Memory.readWord_eq]
  simp only [Memory.read_writeWord, even_add_one_toNat h]
  cases o <;> simp

/-- Writing a datum changes no datum at another even address. -/
theorem Memory.readWord_writeWord_ne (o o' : ByteOrder) (m : List Host.Cell) {a b : Word} (v : Word)
    (ha : a[0] = false) (hb : b[0] = false) (hne : b ≠ a) :
    Memory.readWord o' (Memory.writeWord o m a v) b = Memory.readWord o' m b := by
  have h0 : b.toNat ≠ a.toNat := fun e => hne (BitVec.eq_of_toNat_eq e)
  have hea := even_add_one_toNat ha
  have heb := even_add_one_toNat hb
  rw [addr_bit_zero, decide_eq_false_iff_not] at ha hb
  have h1 : b.toNat ≠ a.toNat + 1 := by omega
  have h2 : b.toNat + 1 ≠ a.toNat + 1 := by omega
  have h3 : b.toNat + 1 ≠ a.toNat := by omega
  rw [Memory.readWord_eq, Memory.readWord_eq]
  simp only [Memory.read_writeWord, hea, heb, h0, h1, h2, h3, if_false]

/-! ### Fetch -/

theorem fetch_ok (h : fetch s = .ok w) :
    s.pc[0] = false ∧ memMap s.platform s.pc = .rom ∧ memMap s.platform (s.pc + 1) = .rom ∧
      w = insnOfBytes (Memory.read s.mem s.pc.toNat) (Memory.read s.mem (s.pc + 1).toNat) := by
  unfold fetch at h
  split at h
  · cases h
  · next h0 =>
    split at h
    · cases h
    · next h1 =>
      push Not at h1
      cases h
      exact ⟨by simpa using h0, h1.1, h1.2, rfl⟩

theorem fetch_error (h : fetch s = .error f) :
    (s.pc[0] = true ∧ f = .fetchMisaligned s.pc) ∨
      (s.pc[0] = false ∧ (memMap s.platform s.pc ≠ .rom ∨ memMap s.platform (s.pc + 1) ≠ .rom) ∧
        f = .executeFromNonProgramMemory s.pc) := by
  unfold fetch at h
  split at h
  · next h0 => cases h; exact .inl ⟨h0, rfl⟩
  · next h0 =>
    split at h
    · next h1 => cases h; exact .inr ⟨by simpa using h0, h1, rfl⟩
    · cases h

/-! ### Data memory -/

theorem memRead_ok (h : memRead addr s = .ok (v, t)) :
    addr[0] = false ∧
      ((memMap s.platform addr = .ram ∧ v = Memory.readWord s.platform.dataOrder s.mem addr ∧ t = s) ∨
        (memMap s.platform addr = .io ∧ v = Config.ioRead s.draws addr ∧ t = (ioRead addr s).2)) := by
  unfold memRead at h
  split at h
  · cases h
  · next h0 =>
    refine ⟨by simpa using h0, ?_⟩
    split at h
    · cases h
    · cases h
    · next hm => cases h; exact .inl ⟨hm, rfl, rfl⟩
    · next hm => cases h; exact .inr ⟨hm, rfl, rfl⟩

theorem memRead_error (h : memRead addr s = .error f) :
    (addr[0] = true ∧ f = .unalignedAccess addr s.pc) ∨
      (addr[0] = false ∧ memMap s.platform addr = .rom ∧ f = .programMemoryAccess addr s.pc) ∨
      (addr[0] = false ∧ memMap s.platform addr = .none ∧ f = .unmappedAccess addr s.pc) := by
  unfold memRead at h
  split at h
  · next h0 => cases h; exact .inl ⟨h0, rfl⟩
  · next h0 =>
    have h0' : addr[0] = false := by simpa using h0
    split at h
    · next hm => cases h; exact .inr (.inl ⟨h0', hm, rfl⟩)
    · next hm => cases h; exact .inr (.inr ⟨h0', hm, rfl⟩)
    · cases h
    · cases h

theorem memWrite_ok (h : memWrite addr v s = .ok t) :
    addr[0] = false ∧
      ((memMap s.platform addr = .ram ∧
          t = { s with mem := Memory.writeWord s.platform.dataOrder s.mem addr v }) ∨
        (memMap s.platform addr = .io ∧ t = ioWrite addr v s)) := by
  unfold memWrite at h
  split at h
  · cases h
  · next h0 =>
    refine ⟨by simpa using h0, ?_⟩
    split at h
    · cases h
    · cases h
    · next hm => cases h; exact .inl ⟨hm, rfl⟩
    · next hm => cases h; exact .inr ⟨hm, rfl⟩

theorem memWrite_error (h : memWrite addr v s = .error f) :
    (addr[0] = true ∧ f = .unalignedAccess addr s.pc) ∨
      (addr[0] = false ∧ memMap s.platform addr = .rom ∧ f = .programMemoryAccess addr s.pc) ∨
      (addr[0] = false ∧ memMap s.platform addr = .none ∧ f = .unmappedAccess addr s.pc) := by
  unfold memWrite at h
  split at h
  · next h0 => cases h; exact .inl ⟨h0, rfl⟩
  · next h0 =>
    have h0' : addr[0] = false := by simpa using h0
    split at h
    · next hm => cases h; exact .inr (.inl ⟨h0', hm, rfl⟩)
    · next hm => cases h; exact .inr (.inr ⟨h0', hm, rfl⟩)
    · cases h
    · cases h

/-- A data store keeps the canonical form of memory. -/
theorem memWrite_wf (h : memWrite addr v s = .ok t) (hw : Memory.wf s.mem = true) : Memory.wf t.mem = true := by
  obtain ⟨-, ⟨-, rfl⟩ | ⟨-, rfl⟩⟩ := memWrite_ok h
  · exact Memory.writeWord_wf _ _ _ hw
  · exact hw

/-! ### Control registers -/

theorem readCR_ok (h : readCR n s = .ok v) :
    (n = 0 ∧ v = s.cpuid1) ∨ (n = 1 ∧ v = s.cpuid2) ∨ (n = 2 ∧ v = s.feat) := by
  unfold readCR at h
  split at h <;> cases h <;> simp

theorem readCR_error (h : readCR n s = .error f) : 2 < n ∧ f = .reservedControlRegister n s.pc := by
  unfold readCR at h
  split at h <;> cases h
  next h0 h1 h2 => exact ⟨by grind, rfl⟩

theorem writeCR_ok (h : writeCR n v s = .ok t) : n ≤ 2 ∧ t = s := by
  unfold writeCR at h
  split at h
  · next hn => cases h; exact ⟨hn, rfl⟩
  · cases h

theorem writeCR_error (h : writeCR n v s = .error f) : 2 < n ∧ f = .reservedControlRegister n s.pc := by
  unfold writeCR at h
  split at h
  · cases h
  · next hn => cases h; exact ⟨by omega, rfl⟩

/-! ### Outcomes, jumps, the step -/

theorem finish_next {α : Type} {r : Except Fault α} {k : α → State} :
    finish r k = .next t ↔ ∃ x, r = .ok x ∧ k x = t := by
  cases r <;> simp [finish]

theorem finish_fault {α : Type} {r : Except Fault α} {k : α → State} :
    finish r k = .fault f ↔ r = .error f := by
  cases r <;> simp [finish]

theorem finish_ne_refused {α : Type} {r : Except Fault α} {k : α → State} (q : Refusal) : finish r k ≠ .refused q := by
  cases r <;> simp [finish]

/-- A jump sets `pc` and nothing else. -/
theorem jumpIf_eq (cc : Cond) (d : Int) (s : State) :
    jumpIf cc d s = s.setPc (if condHolds cc s.flags then jumpTarget d s else s.pc + 2#16) := by
  unfold jumpIf
  split <;> rfl

/-- A step completes exactly when it fetches a valid word whose instruction completes. -/
theorem step_next :
    step s = .next t ↔ ∃ w i, fetch s = .ok w ∧ decode w = .ok i ∧ exec i s = .next t := by
  unfold step
  cases hf : fetch s with
  | error f => simp
  | ok w => cases hd : decode w <;> simp [hd]

/-- A step faults in the fetch, in the decoder or in the instruction. -/
theorem step_fault :
    step s = .fault f ↔
      fetch s = .error f ∨
      (∃ w c, fetch s = .ok w ∧ decode w = .error c ∧ .reservedInstruction w c s.pc = f) ∨
      ∃ w i, fetch s = .ok w ∧ decode w = .ok i ∧ exec i s = .fault f := by
  unfold step
  cases hf : fetch s with
  | error f => simp
  | ok w => cases hd : decode w <;> simp [hd]

/-- Placing an instruction keeps the canonical form of memory. -/
theorem State.withFetchWord_wf (nbits k : Nat) (h : Memory.wf s.mem = true) :
    Memory.wf (s.withFetchWord nbits k).mem = true :=
  Memory.write_wf _ (Memory.write_wf _ h (BitVec.isLt s.pc)) (BitVec.isLt (s.pc + 1))

end Sys2Proof.Machine
end

