-- ==== Sys2Proof/Laws/Exec.lean ====
section
/-! SUPPORT. Said once of all instructions: what a completed one can change besides registers, flags and pc. -/

namespace Sys2Proof.Machine

/-- No result has both its `Z` and its `N` set. -/
theorem not_zero_and_negative (r : Word) : ¬ ((r == 0#16) = true ∧ r[15] = true) := by
  rintro ⟨hz, hn⟩
  rw [beq_iff_eq] at hz
  subst hz
  simp at hn

/-- What a completed instruction may have changed outside the register file and pc: memory, by one aligned datum in RAM, the
history, by one aligned access, and the flags, to a pair `Z`, `N` that a result can have. -/
structure ExecKeeps (s t : State) : Prop where
  memory : t.mem = s.mem ∨ ∃ addr v, addr[0] = false ∧ memMap s.platform addr = .ram ∧
    t.mem = Memory.writeWord s.platform.dataOrder s.mem addr v
  platform : t.platform = s.platform
  cpuid1 : t.cpuid1 = s.cpuid1
  cpuid2 : t.cpuid2 = s.cpuid2
  feat : t.feat = s.feat
  ioLog : t.ioLog = s.ioLog ∨ ∃ e, t.ioLog = s.ioLog ++ [e] ∧ e.ok s.platform = true
  flags : t.flags = s.flags ∨ ¬ (t.flags.z = true ∧ t.flags.n = true)

theorem loadFrom_keeps {a : RegId} {addr : Word} {s t : State} (h : loadFrom a addr s = .next t) : ExecKeeps s t := by
  obtain ⟨⟨v, u⟩, h1, rfl⟩ := finish_next.1 h
  obtain ⟨ha, ⟨-, rfl, rfl⟩ | ⟨hm, rfl, rfl⟩⟩ := memRead_ok h1
  · exact ⟨.inl rfl, rfl, rfl, rfl, rfl, .inl rfl, .inl rfl⟩
  · exact ⟨.inl rfl, rfl, rfl, rfl, rfl, .inr ⟨_, rfl, by simp [IoEvent.ok, ha, hm]⟩, .inl rfl⟩

theorem storeTo_keeps {a : RegId} {addr : Word} {s t : State} (h : storeTo a addr s = .next t) : ExecKeeps s t := by
  obtain ⟨u, h1, rfl⟩ := finish_next.1 h
  obtain ⟨ha, ⟨hm, rfl⟩ | ⟨hm, rfl⟩⟩ := memWrite_ok h1
  · exact ⟨.inr ⟨_, _, ha, hm, rfl⟩, rfl, rfl, rfl, rfl, .inl rfl, .inl rfl⟩
  · exact ⟨.inl rfl, rfl, rfl, rfl, rfl, .inr ⟨_, rfl, by simp [IoEvent.ok, ha, hm]⟩, .inl rfl⟩

theorem jumpIf_keeps (cc : Cond) (d : Int) (s : State) : ExecKeeps s (jumpIf cc d s) := by
  rw [jumpIf_eq]
  exact ⟨.inl rfl, rfl, rfl, rfl, rfl, .inl rfl, .inl rfl⟩

/-- Every completed instruction keeps what `ExecKeeps` says. -/
theorem exec_keeps {i : Instr} {s t : State} (h : exec i s = .next t) : ExecKeeps s t := by
  cases i
  case loadRR => exact loadFrom_keeps h
  case loadRI => exact loadFrom_keeps h
  case storeRR => exact storeTo_keeps h
  case storeRI => exact storeTo_keeps h
  case readcr =>
    obtain ⟨_, -, rfl⟩ := finish_next.1 h
    exact ⟨.inl rfl, rfl, rfl, rfl, rfl, .inl rfl, .inl rfl⟩
  case writecr =>
    obtain ⟨_, h1, rfl⟩ := finish_next.1 h
    obtain ⟨-, rfl⟩ := writeCR_ok h1
    exact ⟨.inl rfl, rfl, rfl, rfl, rfl, .inl rfl, .inl rfl⟩
  all_goals
    cases h
    first
      | exact jumpIf_keeps _ _ _
      | exact ⟨.inl rfl, rfl, rfl, rfl, rfl, .inl rfl, .inl rfl⟩
      | exact ⟨.inl rfl, rfl, rfl, rfl, rfl, .inl rfl, .inr (not_zero_and_negative _)⟩

end Sys2Proof.Machine
end

