-- ==== Sys2Proof/Laws/PerInstr.lean ====
section
/-! SUPPORT. The family TableRow: the encoding of every instruction lies in its row of spec/opcode_table.json. -/

namespace Sys2Proof.Laws

/-- The `match` and `mask` of the instruction's row in spec/opcode_table.json. -/
def TableRow.row (i : Instr) : Word × Word :=
  match i with
  | .addRR _ _ => (0x1000#16, 0xFF03#16)
  | .subRR _ _ => (0x1100#16, 0xFF03#16)
  | .rsubRR _ _ => (0x1200#16, 0xFF03#16)
  | .cmpRR _ _ => (0x1300#16, 0xFF03#16)
  | .orRR _ _ => (0x1400#16, 0xFF03#16)
  | .xorRR _ _ => (0x1500#16, 0xFF03#16)
  | .andRR _ _ => (0x1600#16, 0xFF03#16)
  | .testRR _ _ => (0x1700#16, 0xFF03#16)
  | .movzRR _ _ => (0x1800#16, 0xFF03#16)
  | .movRR _ _ => (0x1900#16, 0xFF03#16)
  | .loadRR _ _ => (0x1A00#16, 0xFF03#16)
  | .storeRR _ _ => (0x1B00#16, 0xFF03#16)
  | .addRI _ _ => (0x5000#16, 0xFF00#16)
  | .subRI _ _ => (0x5100#16, 0xFF00#16)
  | .rsubRI _ _ => (0x5200#16, 0xFF00#16)
  | .cmpRI _ _ => (0x5300#16, 0xFF00#16)
  | .orRI _ _ => (0x5400#16, 0xFF00#16)
  | .xorRI _ _ => (0x5500#16, 0xFF00#16)
  | .andRI _ _ => (0x5600#16, 0xFF00#16)
  | .testRI _ _ => (0x5700#16, 0xFF00#16)
  | .movzRI _ _ => (0x5800#16, 0xFF00#16)
  | .movRI _ _ => (0x5900#16, 0xFF00#16)
  | .loadRI _ _ => (0x5A00#16, 0xFF00#16)
  | .storeRI _ _ => (0x5B00#16, 0xFF00#16)
  | .slo _ _ => (0x5C00#16, 0xFF00#16)
  | .readcr _ _ => (0x5E00#16, 0xFF00#16)
  | .writecr _ _ => (0x5F00#16, 0xFF00#16)
  | .jz _ => (0x8000#16, 0xEF00#16)
  | .jnz _ => (0x8100#16, 0xEF00#16)
  | .jn _ => (0x8200#16, 0xEF00#16)
  | .jnn _ => (0x8300#16, 0xEF00#16)
  | .jc _ => (0x8400#16, 0xEF00#16)
  | .jnc _ => (0x8500#16, 0xEF00#16)
  | .jv _ => (0x8600#16, 0xEF00#16)
  | .jnv _ => (0x8700#16, 0xEF00#16)
  | .jbe _ => (0x8800#16, 0xEF00#16)
  | .ja _ => (0x8900#16, 0xEF00#16)
  | .jl _ => (0x8A00#16, 0xEF00#16)
  | .jge _ => (0x8B00#16, 0xEF00#16)
  | .jle _ => (0x8C00#16, 0xEF00#16)
  | .jg _ => (0x8D00#16, 0xEF00#16)
  | .jmp _ => (0x8E00#16, 0xEF00#16)
  | .jnever _ => (0x8F00#16, 0xEF00#16)

/-- The instruction's word has the row's fixed bits. -/
def TableRow.Statement (i : Instr) : Prop := encode i &&& (TableRow.row i).2 = (TableRow.row i).1

theorem TableRow.rr (op : BitVec 4) (a b : RegId) :
    rrWord op a b &&& 0xFF03#16 = 0x1000#16 ||| (op.setWidth 16 <<< 8) := by
  apply BitVec.eq_of_getLsbD_eq
  intro k hk
  rw [BitVec.getLsbD_and, rrWord_getLsbD]
  interval_cases k <;> simp

theorem TableRow.ri (op : BitVec 4) (a : RegId) (imm5 : BitVec 5) :
    riWord op a imm5 &&& 0xFF00#16 = 0x5000#16 ||| (op.setWidth 16 <<< 8) := by
  apply BitVec.eq_of_getLsbD_eq
  intro k hk
  rw [BitVec.getLsbD_and, riWord_getLsbD]
  interval_cases k <;> simp

theorem TableRow.jump (cc : BitVec 4) (disp9 : BitVec 9) :
    jumpWord cc disp9 &&& 0xEF00#16 = 0x8000#16 ||| (cc.setWidth 16 <<< 8) := by
  apply BitVec.eq_of_getLsbD_eq
  intro k hk
  rw [BitVec.getLsbD_and, jumpWord_getLsbD]
  interval_cases k <;> simp

theorem TableRow.addRR (a b : RegId) : TableRow.Statement (.addRR a b) := TableRow.rr _ a b
theorem TableRow.subRR (a b : RegId) : TableRow.Statement (.subRR a b) := TableRow.rr _ a b
theorem TableRow.rsubRR (a b : RegId) : TableRow.Statement (.rsubRR a b) := TableRow.rr _ a b
theorem TableRow.cmpRR (a b : RegId) : TableRow.Statement (.cmpRR a b) := TableRow.rr _ a b
theorem TableRow.orRR (a b : RegId) : TableRow.Statement (.orRR a b) := TableRow.rr _ a b
theorem TableRow.xorRR (a b : RegId) : TableRow.Statement (.xorRR a b) := TableRow.rr _ a b
theorem TableRow.andRR (a b : RegId) : TableRow.Statement (.andRR a b) := TableRow.rr _ a b
theorem TableRow.testRR (a b : RegId) : TableRow.Statement (.testRR a b) := TableRow.rr _ a b
theorem TableRow.movzRR (a b : RegId) : TableRow.Statement (.movzRR a b) := TableRow.rr _ a b
theorem TableRow.movRR (a b : RegId) : TableRow.Statement (.movRR a b) := TableRow.rr _ a b
theorem TableRow.loadRR (a b : RegId) : TableRow.Statement (.loadRR a b) := TableRow.rr _ a b
theorem TableRow.storeRR (a b : RegId) : TableRow.Statement (.storeRR a b) := TableRow.rr _ a b
theorem TableRow.addRI (a : RegId) (n : Int) : TableRow.Statement (.addRI a n) := TableRow.ri _ a _
theorem TableRow.subRI (a : RegId) (n : Int) : TableRow.Statement (.subRI a n) := TableRow.ri _ a _
theorem TableRow.rsubRI (a : RegId) (n : Int) : TableRow.Statement (.rsubRI a n) := TableRow.ri _ a _
theorem TableRow.cmpRI (a : RegId) (n : Int) : TableRow.Statement (.cmpRI a n) := TableRow.ri _ a _
theorem TableRow.orRI (a : RegId) (n : Int) : TableRow.Statement (.orRI a n) := TableRow.ri _ a _
theorem TableRow.xorRI (a : RegId) (n : Int) : TableRow.Statement (.xorRI a n) := TableRow.ri _ a _
theorem TableRow.andRI (a : RegId) (n : Int) : TableRow.Statement (.andRI a n) := TableRow.ri _ a _
theorem TableRow.testRI (a : RegId) (n : Int) : TableRow.Statement (.testRI a n) := TableRow.ri _ a _
theorem TableRow.movzRI (a : RegId) (n : Nat) : TableRow.Statement (.movzRI a n) := TableRow.ri _ a _
theorem TableRow.movRI (a : RegId) (n : Int) : TableRow.Statement (.movRI a n) := TableRow.ri _ a _
theorem TableRow.loadRI (a : RegId) (n : Nat) : TableRow.Statement (.loadRI a n) := TableRow.ri _ a _
theorem TableRow.storeRI (a : RegId) (n : Nat) : TableRow.Statement (.storeRI a n) := TableRow.ri _ a _
theorem TableRow.slo (a : RegId) (n : Nat) : TableRow.Statement (.slo a n) := TableRow.ri _ a _
theorem TableRow.readcr (a : RegId) (n : Nat) : TableRow.Statement (.readcr a n) := TableRow.ri _ a _
theorem TableRow.writecr (a : RegId) (n : Nat) : TableRow.Statement (.writecr a n) := TableRow.ri _ a _
theorem TableRow.jz (d : Int) : TableRow.Statement (.jz d) := TableRow.jump _ _
theorem TableRow.jnz (d : Int) : TableRow.Statement (.jnz d) := TableRow.jump _ _
theorem TableRow.jn (d : Int) : TableRow.Statement (.jn d) := TableRow.jump _ _
theorem TableRow.jnn (d : Int) : TableRow.Statement (.jnn d) := TableRow.jump _ _
theorem TableRow.jc (d : Int) : TableRow.Statement (.jc d) := TableRow.jump _ _
theorem TableRow.jnc (d : Int) : TableRow.Statement (.jnc d) := TableRow.jump _ _
theorem TableRow.jv (d : Int) : TableRow.Statement (.jv d) := TableRow.jump _ _
theorem TableRow.jnv (d : Int) : TableRow.Statement (.jnv d) := TableRow.jump _ _
theorem TableRow.jbe (d : Int) : TableRow.Statement (.jbe d) := TableRow.jump _ _
theorem TableRow.ja (d : Int) : TableRow.Statement (.ja d) := TableRow.jump _ _
theorem TableRow.jl (d : Int) : TableRow.Statement (.jl d) := TableRow.jump _ _
theorem TableRow.jge (d : Int) : TableRow.Statement (.jge d) := TableRow.jump _ _
theorem TableRow.jle (d : Int) : TableRow.Statement (.jle d) := TableRow.jump _ _
theorem TableRow.jg (d : Int) : TableRow.Statement (.jg d) := TableRow.jump _ _
theorem TableRow.jmp (d : Int) : TableRow.Statement (.jmp d) := TableRow.jump _ _
theorem TableRow.jnever (d : Int) : TableRow.Statement (.jnever d) := TableRow.jump _ _

end Sys2Proof.Laws
end

