-- ==== Sys2Proof/Tests/Slice0.lean ====
section
/-! SUPPORT. The model's own tests: well-formedness, words written out bit by bit from 30_encoding.md, single steps with
the results of 95_test_vectors.md section 2, and for every statement that has hypotheses a witness that meets them. -/

namespace Sys2Proof.Tests

open Sys2Proof.Machine Sys2Proof.Claims

/-! ### Well-formedness (30_encoding.md R70): every check refuses an ill-formed term and takes both ends of its range -/

theorem test_wf_signed_refuses_16 : WellFormed (.addRI 0 16) = false := by decide
theorem test_wf_signed_refuses_minus_17 : WellFormed (.movRI 3 (-17)) = false := by decide
theorem test_wf_unsigned_refuses_32 : WellFormed (.movzRI 0 32) = false := by decide
theorem test_wf_control_number_refuses_32 : WellFormed (.readcr 7 32) = false := by decide
theorem test_wf_displacement_refuses_256 : WellFormed (.jz 256) = false := by decide
theorem test_wf_displacement_refuses_minus_257 : WellFormed (.jnever (-257)) = false := by decide
theorem test_wf_takes_the_ends :
    [Instr.addRI 7 15, .subRI 7 (-16), .slo 7 31, .storeRI 0 0, .jmp 255, .ja (-256)].all WellFormed = true := by decide

/-! ### Words written out from the formats: `00 01 CCCC AAA BBB 00`, `01 01 CCCC RRR IIIII`, `10 0 D CCCC DDDDDDDD` -/

theorem test_decode_addRR : decode 0b0001000000101000#16 = .ok (.addRR 1 2) := by decide
theorem test_decode_subRR : decode 0b0001000110110100#16 = .ok (.subRR 5 5) := by decide
theorem test_decode_rsubRR : decode 0b0001001000000100#16 = .ok (.rsubRR 0 1) := by decide
theorem test_decode_cmpRR : decode 0b0001001101011100#16 = .ok (.cmpRR 2 7) := by decide
theorem test_decode_orRR : decode 0b0001010000000100#16 = .ok (.orRR 0 1) := by decide
theorem test_decode_xorRR : decode 0b0001010110101100#16 = .ok (.xorRR 5 3) := by decide
theorem test_decode_andRR : decode 0b0001011010101000#16 = .ok (.andRR 5 2) := by decide
theorem test_decode_testRR : decode 0b0001011101001100#16 = .ok (.testRR 2 3) := by decide
theorem test_decode_movzRR : decode 0b0001100000110100#16 = .ok (.movzRR 1 5) := by decide
theorem test_decode_movRR : decode 0b0001100111001100#16 = .ok (.movRR 6 3) := by decide
theorem test_decode_loadRR : decode 0b0001101000011000#16 = .ok (.loadRR 0 6) := by decide
theorem test_decode_storeRR : decode 0b0001101110111000#16 = .ok (.storeRR 5 6) := by decide
theorem test_decode_addRI : decode 0b0101000010111111#16 = .ok (.addRI 5 (-1)) := by decide
theorem test_decode_subRI : decode 0b0101000110000001#16 = .ok (.subRI 4 1) := by decide
theorem test_decode_rsubRI : decode 0b0101001010110000#16 = .ok (.rsubRI 5 (-16)) := by decide
theorem test_decode_cmpRI : decode 0b0101001101111111#16 = .ok (.cmpRI 3 (-1)) := by decide
theorem test_decode_orRI : decode 0b0101010001001111#16 = .ok (.orRI 2 15) := by decide
theorem test_decode_xorRI : decode 0b0101010100111111#16 = .ok (.xorRI 1 (-1)) := by decide
theorem test_decode_andRI : decode 0b0101011001110000#16 = .ok (.andRI 3 (-16)) := by decide
theorem test_decode_testRI : decode 0b0101011110100001#16 = .ok (.testRI 5 1) := by decide
theorem test_decode_movzRI : decode 0b0101100001111111#16 = .ok (.movzRI 3 31) := by decide
theorem test_decode_movRI : decode 0b0101100110010000#16 = .ok (.movRI 4 (-16)) := by decide
theorem test_decode_loadRI : decode 0b0101101000111110#16 = .ok (.loadRI 1 30) := by decide
theorem test_decode_storeRI : decode 0b0101101101110001#16 = .ok (.storeRI 3 17) := by decide
theorem test_decode_slo : decode 0b0101110011111111#16 = .ok (.slo 7 31) := by decide
theorem test_decode_readcr : decode 0b0101111010110000#16 = .ok (.readcr 5 16) := by decide
theorem test_decode_writecr : decode 0b0101111111100010#16 = .ok (.writecr 7 2) := by decide
theorem test_decode_jz : decode 0b1000000011111111#16 = .ok (.jz 255) := by decide
theorem test_decode_jnz : decode 0b1001000111111100#16 = .ok (.jnz (-4)) := by decide
theorem test_decode_jn : decode 0b1001001011111111#16 = .ok (.jn (-1)) := by decide
theorem test_decode_jnn : decode 0b1000001100000100#16 = .ok (.jnn 4) := by decide
theorem test_decode_jc : decode 0b1000010000000100#16 = .ok (.jc 4) := by decide
theorem test_decode_jnc : decode 0b1000010100000100#16 = .ok (.jnc 4) := by decide
theorem test_decode_jv : decode 0b1001011000000000#16 = .ok (.jv (-256)) := by decide
theorem test_decode_jnv : decode 0b1000011100000001#16 = .ok (.jnv 1) := by decide
theorem test_decode_jbe : decode 0b1000100010000000#16 = .ok (.jbe 128) := by decide
theorem test_decode_ja : decode 0b1000100100000100#16 = .ok (.ja 4) := by decide
theorem test_decode_jl : decode 0b1001101011111010#16 = .ok (.jl (-6)) := by decide
theorem test_decode_jge : decode 0b1000101100000100#16 = .ok (.jge 4) := by decide
theorem test_decode_jle : decode 0b1001110010000000#16 = .ok (.jle (-128)) := by decide
theorem test_decode_jg : decode 0b1000110101111111#16 = .ok (.jg 127) := by decide
theorem test_decode_jmp : decode 0b1001111011111110#16 = .ok (.jmp (-2)) := by decide
theorem test_decode_jnever : decode 0b1000111101100100#16 = .ok (.jnever 100) := by decide

/-- One word of each reserved class at an edge of its row (95_test_vectors.md 2.1). -/
theorem test_decode_reserved :
    [0x0000#16, 0x3000#16, 0x4000#16, 0x7000#16, 0x1003#16, 0x1C00#16, 0x1F00#16, 0x5DFF#16, 0xA000#16, 0xBFFF#16, 0xC000#16,
      0xFFFF#16].map decode =
    [.error .operationSize, .error .operationSize, .error .operationSize, .error .operationSize, .error .addressingMode,
      .error .noTwoRegisterForm, .error .noTwoRegisterForm, .error .opcode13, .error .jumpSpace, .error .jumpSpace,
      .error .variableLength, .error .variableLength] := by decide

/-- The first byte is the high half: 0x50 0xBF is `ADD r5, -1` (95_test_vectors.md 2.4). -/
theorem test_decodeBytes_order : decodeBytes 0x50#8 0xBF#8 = .ok (.addRI 5 (-1)) := by decide

theorem test_decodeTableWord : decodeTableWord 16 0x1028 = some (.addRR 1 2) := by decide

/-! ### Single steps from the start state of 95_test_vectors.md 2.4 and 2.7 -/

/-- The start registers, flags and RAM of the vectors, on the test platform. -/
def start : State :=
  { State.reset with
    regs := #v[0x00F0#16, 0x0F0F#16, 0x8000#16, 0xFFFF#16, 0x0000#16, 0x1234#16, 0x0100#16, 0x7FFF#16]
    flags := { z := true, n := false, c := true, v := true }
    mem := [(0x0000, 0x11#8), (0x0001, 0x11#8), (0x0010, 0xFE#8), (0x0011, 0xCA#8), (0x001E, 0x42#8), (0x0100, 0xEF#8),
      (0x0101, 0xBE#8)] }

/-- The vectors' state about to execute the word `w`. -/
def before (w : Nat) : State := start.withFetchWord 16 w

/-- One step of it. -/
def run (w : Nat) : Host.Outcome State Fault Refusal := step (before w)

/-- The four flags `Z N C V` as the number they spell in binary. -/
def flagRow (k : Nat) : Flags := { z := k.testBit 3, n := k.testBit 2, c := k.testBit 1, v := k.testBit 0 }

/-- A field of the next state, if the outcome is one. -/
def view {α : Type} (o : Host.Outcome State Fault Refusal) (f : State → α) : Option α :=
  match o with
  | .next t => some (f t)
  | _ => none

/-- The fault of the outcome, if it is one. -/
def faultOf (o : Host.Outcome State Fault Refusal) : Option Fault :=
  match o with
  | .fault f => some f
  | _ => none

/-- Register `r` and the flags `Z`, `N`, `C`, `V` after the word `w`. -/
def regAndFlags (w : Nat) (r : RegId) : Option (Word × Flags) := view (run w) fun t => (t.reg r, t.flags)

/-- Register `r` and the flags `Z`, `N` after the word `w`. -/
def regAndZN (w : Nat) (r : RegId) : Option (Word × Bool × Bool) := view (run w) fun t => (t.reg r, t.flags.z, t.flags.n)

theorem test_addRR_doubles : regAndFlags 0x1048 2 = some (0x0000#16, flagRow 0b1011) := by decide
theorem test_addRR : regAndFlags 0x1028 1 = some (0x8F0F#16, flagRow 0b0100) := by decide
theorem test_addRI_minus_one : regAndFlags 0x50BF 5 = some (0x1233#16, flagRow 0b0010) := by decide
theorem test_addRI_overflows : regAndFlags 0x50E1 7 = some (0x8000#16, flagRow 0b0101) := by decide
theorem test_subRR : regAndFlags 0x11B4 5 = some (0x0000#16, flagRow 0b1000) := by decide
theorem test_subRI_borrows : regAndFlags 0x5181 4 = some (0xFFFF#16, flagRow 0b0110) := by decide
theorem test_subRI_overflows : regAndFlags 0x51FF 7 = some (0x8000#16, flagRow 0b0111) := by decide
theorem test_rsubRR : regAndFlags 0x1204 0 = some (0x0E1F#16, flagRow 0b0000) := by decide
theorem test_rsubRI_neg : regAndFlags 0x52A0 5 = some (0xEDCC#16, flagRow 0b0110) := by decide
theorem test_rsubRI_not : regAndFlags 0x527F 3 = some (0x0000#16, flagRow 0b1000) := by decide
theorem test_cmpRR_above_and_less : regAndFlags 0x135C 2 = some (0x8000#16, flagRow 0b0001) := by decide
theorem test_cmpRR_below_and_greater : regAndFlags 0x13E8 7 = some (0x7FFF#16, flagRow 0b0111) := by decide
theorem test_cmpRI_equal : regAndFlags 0x537F 3 = some (0xFFFF#16, flagRow 0b1000) := by decide
theorem test_cmpRI_below : regAndFlags 0x5381 4 = some (0x0000#16, flagRow 0b0110) := by decide
theorem test_orRR : regAndZN 0x1404 0 = some (0x0FFF#16, false, false) := by decide
theorem test_orRI : regAndZN 0x5490 4 = some (0xFFF0#16, false, true) := by decide
theorem test_xorRR : regAndZN 0x15AC 5 = some (0xEDCB#16, false, true) := by decide
theorem test_xorRI : regAndZN 0x553F 1 = some (0xF0F0#16, false, true) := by decide
theorem test_andRR : regAndZN 0x1620 1 = some (0x0000#16, true, false) := by decide
theorem test_andRI : regAndZN 0x5670 3 = some (0xFFF0#16, false, true) := by decide
theorem test_testRR : regAndZN 0x174C 2 = some (0x8000#16, false, true) := by decide
theorem test_testRI : regAndZN 0x57A1 5 = some (0x1234#16, true, false) := by decide
theorem test_movzRR : regAndFlags 0x1834 1 = some (0x1234#16, flagRow 0b1011) := by decide
theorem test_movzRI : regAndFlags 0x587F 3 = some (0x001F#16, flagRow 0b1011) := by decide
theorem test_movRR : regAndFlags 0x19CC 6 = some (0xFFFF#16, flagRow 0b1011) := by decide
theorem test_movRI : regAndFlags 0x5990 4 = some (0xFFF0#16, flagRow 0b1011) := by decide
theorem test_slo_loses_the_top : regAndFlags 0x5C60 3 = some (0xFFE0#16, flagRow 0b1011) := by decide
theorem test_slo : regAndFlags 0x5CBF 5 = some (0x469F#16, flagRow 0b1011) := by decide
theorem test_loadRR_base_overwritten : regAndFlags 0x1AD8 6 = some (0xBEEF#16, flagRow 0b1011) := by decide
theorem test_loadRI : regAndFlags 0x5A3E 1 = some (0x0042#16, flagRow 0b1011) := by decide
theorem test_readcr : regAndFlags 0x5EA2 5 = some (0x0000#16, flagRow 0b1011) := by decide
theorem test_writecr : regAndFlags 0x5FA0 5 = some (0x1234#16, flagRow 0b1011) := by decide

/-- `STORE r5, [r6]`: the datum at 0x0100 is 0x1234. -/
theorem test_storeRR : view (run 0x1BB8) (fun t => (Memory.readWord .little t.mem 0x0100#16, t.reg 6, t.pc)) =
    some (0x1234#16, 0x0100#16, 0x8002#16) := by decide

/-- `STORE r3, [30]`: the datum at 0x001E is 0xFFFF, its neighbour keeps its value. -/
theorem test_storeRI :
    view (run 0x5B7E) (fun t => (Memory.readWord .little t.mem 0x001E#16, Memory.readWord .little t.mem 0x0010#16)) =
      some (0xFFFF#16, 0xCAFE#16) := by decide

/-- A memory that stores the unlisted value lists nothing there. -/
theorem test_store_zero_unlists : Memory.write [(4, 0x77#8)] 4 0x00#8 = [] := by decide

/-- `LOAD r1, [31]`: the immediate is zero extended and odd. -/
theorem test_loadRI_unaligned : faultOf (run 0x5A3F) = some (.unalignedAccess 0x001F#16 0x8000#16) := by decide

/-- `LOAD r1, [r3]`: the alignment is checked before the region. -/
theorem test_loadRR_alignment_first : faultOf (run 0x1A2C) = some (.unalignedAccess 0xFFFF#16 0x8000#16) := by decide

theorem test_storeRR_rom : faultOf (run 0x1B08) = some (.programMemoryAccess 0x8000#16 0x8000#16) := by decide

theorem test_storeRI_unaligned : faultOf (run 0x5B71) = some (.unalignedAccess 0x0011#16 0x8000#16) := by decide

/-- `READCR r5, 16`: bit 4 of the immediate is part of the number. -/
theorem test_readcr_16 : faultOf (run 0x5EB0) = some (.reservedControlRegister 16 0x8000#16) := by decide

theorem test_writecr_3 : faultOf (run 0x5FA3) = some (.reservedControlRegister 3 0x8000#16) := by decide

/-- A two-register READCR does not exist. -/
theorem test_reserved_word : faultOf (run 0x1EA0) = some (.reservedInstruction 0x1EA0#16 .noTwoRegisterForm 0x8000#16) := by decide

/-- The first step after reset, with nothing placed: empty memory holds the reserved word 0x0000. -/
theorem test_step_reset : faultOf (step State.reset) = some (.reservedInstruction 0x0000#16 .operationSize 0x8000#16) := by decide

/-! ### The sixteen columns of 95_test_vectors.md 2.9, the rows in the order of the table (`Z N C V` from 0000 to 1111) -/

/-- The column of a condition, `true` where the jump is taken. -/
def column (cc : Cond) : List Bool := (List.range 16).map fun k => condHolds cc (flagRow k)

theorem test_column_jz : column .zero =
    [false, false, false, false, false, false, false, false, true, true, true, true, true, true, true, true] := by decide
theorem test_column_jnz : column .notZero =
    [true, true, true, true, true, true, true, true, false, false, false, false, false, false, false, false] := by decide
theorem test_column_jn : column .negative =
    [false, false, false, false, true, true, true, true, false, false, false, false, true, true, true, true] := by decide
theorem test_column_jnn : column .notNegative =
    [true, true, true, true, false, false, false, false, true, true, true, true, false, false, false, false] := by decide
theorem test_column_jc : column .carry =
    [false, false, true, true, false, false, true, true, false, false, true, true, false, false, true, true] := by decide
theorem test_column_jnc : column .noCarry =
    [true, true, false, false, true, true, false, false, true, true, false, false, true, true, false, false] := by decide
theorem test_column_jv : column .overflow =
    [false, true, false, true, false, true, false, true, false, true, false, true, false, true, false, true] := by decide
theorem test_column_jnv : column .noOverflow =
    [true, false, true, false, true, false, true, false, true, false, true, false, true, false, true, false] := by decide
theorem test_column_jbe : column .belowOrEqual =
    [false, false, true, true, false, false, true, true, true, true, true, true, true, true, true, true] := by decide
theorem test_column_ja : column .above =
    [true, true, false, false, true, true, false, false, false, false, false, false, false, false, false, false] := by decide
theorem test_column_jl : column .less =
    [false, true, false, true, true, false, true, false, false, true, false, true, true, false, true, false] := by decide
theorem test_column_jge : column .greaterOrEqual =
    [true, false, true, false, false, true, false, true, true, false, true, false, false, true, false, true] := by decide
theorem test_column_jle : column .lessOrEqual =
    [false, true, false, true, true, false, true, false, true, true, true, true, true, true, true, true] := by decide
theorem test_column_jg : column .greater =
    [true, false, true, false, false, true, false, true, false, false, false, false, false, false, false, false] := by decide
theorem test_column_jmp : column .always =
    [true, true, true, true, true, true, true, true, true, true, true, true, true, true, true, true] := by decide
theorem test_column_jnever : column .never =
    [false, false, false, false, false, false, false, false, false, false, false, false, false, false, false, false] := by decide

/-! ### Jump targets (95_test_vectors.md 2.10) -/

/-- The next pc of the word `w` at the address `p`. -/
def targetAt (p : Word) (w : Nat) : Option Word := view (step ((start.setPc p).withFetchWord 16 w)) State.pc

theorem test_jmp_target_wraps : targetAt 0xFF80#16 0x8EFE = some 0x007E#16 := by decide
theorem test_jz_taken : targetAt 0x8000#16 0x8006 = some 0x8006#16 := by decide
theorem test_ja_not_taken : targetAt 0x8000#16 0x8904 = some 0x8002#16 := by decide
theorem test_jl_taken_backward : targetAt 0x8020#16 0x9AFA = some 0x801A#16 := by decide
theorem test_jnever_wraps : targetAt 0xFFFE#16 0x8F64 = some 0x0000#16 := by decide

/-! ### Witnesses: states and operands that meet the hypotheses of the statements -/

/-- The vectors' state on a platform with ROM to 0xBFFF, RAM to 0x00FF, a device at 0x0100 to 0x01FF, nothing elsewhere. -/
def onDevice (w : Nat) : State :=
  { before w with
    platform :=
      { romEnd := 0xBFFF#16
        ranges := [{ first := 0x0000#16, last := 0x00FF#16, kind := .ram }, { first := 0x0100#16, last := 0x01FF#16, kind := .io }]
        dataOrder := .big } }

theorem witness_DecodeOfEncodeIsTheInstruction :
    [Instr.storeRR 7 0, .addRI 7 (-16), .movRI 0 15, .movzRI 0 31, .writecr 7 31, .jz (-256), .jnever 255].all WellFormed = true := by
  decide

theorem witness_EncodeOfDecodeIsTheWord : decode 0x9FFF#16 = .ok (.jnever (-1)) ∧ encode (.jnever (-1)) = 0x9FFF#16 := by decide

theorem witness_ReservedClassesPartitionTheWords :
    [0xC000#16, 0xA000#16, 0x2000#16, 0x1C00#16, 0x1001#16, 0x5D00#16].map decode =
      [.error .variableLength, .error .jumpSpace, .error .operationSize, .error .noTwoRegisterForm, .error .addressingMode,
        .error .opcode13] := by decide

theorem witness_StepRunsTheDecodedInstruction :
    (before 0x1028).pc[0] = false ∧ memMap (before 0x1028).platform (before 0x1028).pc = .rom ∧
      memMap (before 0x1028).platform ((before 0x1028).pc + 1) = .rom ∧
      decodeBytes (Memory.read (before 0x1028).mem (before 0x1028).pc.toNat)
        (Memory.read (before 0x1028).mem ((before 0x1028).pc + 1).toNat) = .ok (.addRR 1 2) := by decide

/-- The three clauses: an odd pc, the last even pc below ROM, the last even pc of ROM. -/
theorem witness_FetchChecksAlignmentThenRegion :
    (start.setPc 0x8001#16).pc[0] = true ∧
      ((start.setPc 0x7FFE#16).pc[0] = false ∧ memMap start.platform 0x7FFE#16 ≠ .rom) ∧
      ((start.setPc 0xFFFE#16).pc[0] = false ∧ memMap start.platform 0xFFFE#16 = .rom ∧
        memMap start.platform (0xFFFE#16 + 1) = .rom) := by decide

theorem witness_ReservedWordsFault :
    fetch (before 0x5D00) = .ok 0x5D00#16 ∧ decode 0x5D00#16 = .error .opcode13 := by decide

/-- A step for each of the seven causes. -/
theorem witness_FaultsAreExactlyTheSpecCauses :
    faultOf (step (start.setPc 0x8001#16)) = some (.fetchMisaligned 0x8001#16) ∧
      faultOf (step (start.setPc 0x7FFE#16)) = some (.executeFromNonProgramMemory 0x7FFE#16) ∧
      faultOf (run 0xA000) = some (.reservedInstruction 0xA000#16 .jumpSpace 0x8000#16) ∧
      faultOf (run 0x1A3C) = some (.unalignedAccess 0x7FFF#16 0x8000#16) ∧
      faultOf (run 0x1A28) = some (.programMemoryAccess 0x8000#16 0x8000#16) ∧
      faultOf (step ((onDevice 0x1A28).setReg 2 0xC000#16)) = some (.unmappedAccess 0xC000#16 0x8000#16) ∧
      faultOf (run 0x5FBF) = some (.reservedControlRegister 31 0x8000#16) := by decide

theorem witness_OnlyMemoryAndControlInstructionsCanFault :
    dataAddr (.addRR 1 2) start = none ∧ controlNumber (.addRR 1 2) = none ∧ dataAddr (.slo 1 31) start = none ∧
      controlNumber (.slo 1 31) = none := by decide

theorem witness_WordsWithTheSameEffect : (15#5).toNat ≤ 15 ∧ (15#5).toInt = 15 := by decide

/-- LOAD and STORE, register indirect: odd, ROM, unmapped, RAM and device addresses at the ends of the regions. -/
theorem witness_LoadOutcomes :
    (0xBFFF#16)[0] = true ∧
      ((0x8000#16)[0] = false ∧ memMap (onDevice 0).platform 0x8000#16 = .rom) ∧
      ((0xBFFE#16)[0] = false ∧ memMap (onDevice 0).platform 0xBFFE#16 = .rom) ∧
      ((0xC000#16)[0] = false ∧ memMap (onDevice 0).platform 0xC000#16 = .none) ∧
      ((0x00FE#16)[0] = false ∧ memMap (onDevice 0).platform 0x00FE#16 = .ram) ∧
      ((0x0100#16)[0] = false ∧ memMap (onDevice 0).platform 0x0100#16 = .io) ∧
      (((31#5).setWidth 16)[0] = true ∧ ((30#5).setWidth 16)[0] = false ∧
        memMap (onDevice 0).platform ((30#5).setWidth 16) = .ram) := by decide

theorem witness_StoreOutcomes :
    ((onDevice 0).reg 3)[0] = true ∧
      (((onDevice 0).reg 2)[0] = false ∧ memMap (onDevice 0).platform ((onDevice 0).reg 2) = .rom) ∧
      ((0x0200#16)[0] = false ∧ memMap (onDevice 0).platform 0x0200#16 = .none) ∧
      (((onDevice 0).reg 4)[0] = false ∧ memMap (onDevice 0).platform ((onDevice 0).reg 4) = .ram) ∧
      (((onDevice 0).reg 6)[0] = false ∧ memMap (onDevice 0).platform ((onDevice 0).reg 6) = .io) := by decide

theorem witness_StoreThenLoadReturnsTheValue :
    memMap start.platform (start.reg 6) = .ram ∧ (∃ t, exec (.storeRR 5 6) start = .next t) ∧
      (0x0102#16)[0] = false ∧ 0x0102#16 ≠ start.reg 6 :=
  ⟨by decide, ⟨_, rfl⟩, by decide, by decide⟩

theorem witness_OnlyStoresWriteMemory :
    (∀ a b, Instr.loadRR 0 6 ≠ .storeRR a b) ∧ (∀ a n, Instr.loadRR 0 6 ≠ .storeRI a n) ∧
      ∃ t, exec (.loadRR 0 6) start = .next t :=
  ⟨fun _ _ h => (nomatch h), fun _ _ h => (nomatch h), ⟨_, rfl⟩⟩

/-- A load and a store of the device at 0x0100, and a load of RAM. -/
theorem witness_IoHistoryGrowsByExactlyTheAccess :
    (∃ t, exec (.loadRR 0 6) (onDevice 0) = .next t) ∧ (∃ t, exec (.storeRR 0 6) (onDevice 0) = .next t) ∧
      dataAddr (.loadRR 0 6) (onDevice 0) = some 0x0100#16 ∧ dataAddr (.storeRR 0 6) (onDevice 0) = some 0x0100#16 ∧
      memMap (onDevice 0).platform 0x0100#16 = .io ∧
      (∃ t, exec (.loadRI 0 0) (onDevice 0) = .next t) ∧
      ∀ addr, dataAddr (.loadRI 0 0) (onDevice 0) = some addr → memMap (onDevice 0).platform addr ≠ .io :=
  ⟨⟨_, rfl⟩, ⟨_, rfl⟩, by decide, by decide, by decide, ⟨_, rfl⟩, fun addr h => by cases h; decide⟩

theorem witness_MemoryMapHasTheSpecShape :
    (0xBFFE#16)[0] = false ∧ memMap (onDevice 0).platform 0xBFFF#16 = .rom ∧ 0x8000#16 ≤ 0xBFFE#16 ∧ 0xBFFE#16 ≤ 0xBFFF#16 ∧
      (onDevice 0).platform.romEnd[0] = true ∧ 0x8001#16 ≤ (onDevice 0).platform.romEnd := by decide

/-- The vectors' state before any word meets the invariant. -/
theorem start_inv (w : Nat) (h : Memory.wf (before w).mem = true) : Inv (before w) where
  memory := h
  flags := fun hzn => Bool.noConfusion hzn.2
  cpuid1 := rfl
  cpuid2 := rfl
  feat := rfl
  ioLog := fun _ he => nomatch he

/-- The numbers on both sides of the boundary. -/
theorem witness_ReadcrResult :
    Inv (before 0x5EA2) ∧ (0#5).toNat ≤ 2 ∧ (2#5).toNat ≤ 2 ∧ 2 < (3#5).toNat ∧ 2 < (31#5).toNat :=
  ⟨start_inv _ (by decide), by decide, by decide, by decide, by decide⟩

theorem witness_WritecrResult : (0#5).toNat ≤ 2 ∧ (2#5).toNat ≤ 2 ∧ 2 < (3#5).toNat ∧ 2 < (31#5).toNat := by decide

theorem witness_ControlRegistersAndPlatformAreConstant : ∃ t, step (before 0x1BB8) = .next t := ⟨_, rfl⟩

/-- `CMP r2, r7` and `SUB r4, 1` from the vectors' state. -/
theorem witness_ComparisonJumpsCompare :
    Compares (.cmpRR 2 7) 0x8000#16 0x7FFF#16 start ∧ (∃ t, exec (.cmpRR 2 7) start = .next t) ∧
      Compares (.subRI 4 1) 0x0000#16 0x0001#16 start ∧ ∃ t, exec (.subRI 4 1) start = .next t :=
  ⟨⟨2, by decide, .inl ⟨7, by decide, .inl rfl⟩⟩, ⟨_, rfl⟩, ⟨4, by decide, .inr ⟨1#5, by decide, .inr rfl⟩⟩, ⟨_, rfl⟩⟩

/-- `ADD r7, 1` overflows, `ADD r5, -1` carries. -/
theorem witness_JumpsAfterAnAddition :
    Adds (.addRI 7 1) 0x7FFF#16 0x0001#16 start ∧ (∃ t, exec (.addRI 7 1) start = .next t) ∧
      Adds (.addRR 3 5) 0xFFFF#16 0x1234#16 start ∧ ∃ t, exec (.addRR 3 5) start = .next t :=
  ⟨⟨7, by decide, .inr ⟨1#5, by decide, rfl⟩⟩, ⟨_, rfl⟩, ⟨3, by decide, .inl ⟨5, by decide, rfl⟩⟩, ⟨_, rfl⟩⟩

/-- A taken jump to the odd address 0x80FF, one to 0x7F00, outside ROM, both from an even pc, and a jump not taken. -/
theorem witness_BadJumpTargetsFaultAtTheNextFetch :
    tableCond 0#4 start.flags ∧ ¬ tableCond 1#4 start.flags ∧ tableCond 14#4 start.flags ∧
      targetAt 0x8000#16 0x8EFF = some (0x8000#16 + (255#9).signExtend 16) ∧ (255#9)[0] = true ∧ (0x8000#16)[0] = false ∧
      (0x80FF#16)[0] = true ∧ targetAt 0x8000#16 0x9E00 = some 0x7F00#16 ∧ (0x7F00#16)[0] = false ∧
      memMap start.platform 0x7F00#16 ≠ .rom := by
  refine ⟨rfl, fun h => Bool.noConfusion h, trivial, ?_⟩
  decide

theorem witness_EveryNeverJumpWordIsANop :
    0x8F00#16 &&& 0xEF00#16 = 0x8F00#16 ∧ 0x9FFF#16 &&& 0xEF00#16 = 0x8F00#16 := by decide

/-- `JZ -256`, taken at `Z = 1`, and `JNZ -256`, not taken there. -/
theorem witness_PcMovesByTwoOrByTheDisplacement :
    (∃ t, exec (.addRR 1 2) start = .next t) ∧ isJump (.addRR 1 2) = false ∧ (∃ t, exec (.jz (-256)) start = .next t) ∧
      Instr.jz (-256) = jumpInstr 0#4 256#9 ∧ tableCond 0#4 start.flags ∧ Instr.jnz (-256) = jumpInstr 1#4 256#9 ∧
      ¬ tableCond 1#4 start.flags ∧ isJump (.jz (-256)) = true ∧ WellFormed (.jz (-256)) = true :=
  ⟨⟨_, rfl⟩, by decide, ⟨_, rfl⟩, by decide, rfl, by decide, fun h => Bool.noConfusion h, by decide, by decide⟩

theorem witness_ArithmeticFrame :
    (∃ b, Instr.rsubRR 0 1 = .addRR 0 b ∨ Instr.rsubRR 0 1 = .subRR 0 b ∨ Instr.rsubRR 0 1 = .rsubRR 0 b) ∧
      ∃ t, exec (.rsubRR 0 1) start = .next t :=
  ⟨⟨1, .inr (.inr rfl)⟩, ⟨_, rfl⟩⟩

theorem witness_BitwiseFrame :
    (∃ imm, Instr.xorRI 1 (-1) = .orRI 1 imm ∨ Instr.xorRI 1 (-1) = .xorRI 1 imm ∨ Instr.xorRI 1 (-1) = .andRI 1 imm) ∧
      ∃ t, exec (.xorRI 1 (-1)) start = .next t :=
  ⟨⟨-1, .inr (.inl rfl)⟩, ⟨_, rfl⟩⟩

theorem witness_CompareAndTestFrame :
    ((∃ b, Instr.testRR 2 3 = .testRR 2 b) ∧ ∃ t, exec (.testRR 2 3) start = .next t) ∧
      (∃ imm, Instr.cmpRI 3 (-1) = .cmpRI 3 imm) ∧ ∃ t, exec (.cmpRI 3 (-1)) start = .next t :=
  ⟨⟨⟨3, rfl⟩, ⟨_, rfl⟩⟩, ⟨-1, rfl⟩, ⟨_, rfl⟩⟩

theorem witness_MoveFrame :
    (∃ n, Instr.readcr 5 2 = .movzRI 5 n ∨ Instr.readcr 5 2 = .slo 5 n ∨ Instr.readcr 5 2 = .readcr 5 n) ∧
      ∃ t, exec (.readcr 5 2) start = .next t :=
  ⟨⟨2, .inr (.inr rfl)⟩, ⟨_, rfl⟩⟩

/-- A load of RAM and a load of a device. -/
theorem witness_LoadFrame :
    ((∃ b, Instr.loadRR 6 6 = .loadRR 6 b) ∧ (∃ t, exec (.loadRR 6 6) start = .next t) ∧
      dataAddr (.loadRR 6 6) start = some 0x0100#16 ∧ memMap start.platform 0x0100#16 ≠ .io) ∧
      (∃ t, exec (.loadRR 6 6) (onDevice 0) = .next t) ∧ dataAddr (.loadRR 6 6) (onDevice 0) = some 0x0100#16 ∧
      memMap (onDevice 0).platform 0x0100#16 = .io :=
  ⟨⟨⟨6, rfl⟩, ⟨_, rfl⟩, by decide, by decide⟩, ⟨_, rfl⟩, by decide, by decide⟩

/-- A store to RAM and a store to a device. -/
theorem witness_StoreFrame :
    ((∃ b, Instr.storeRR 5 6 = .storeRR 5 b) ∧ (∃ t, exec (.storeRR 5 6) start = .next t) ∧
      dataAddr (.storeRR 5 6) start = some 0x0100#16 ∧ memMap start.platform 0x0100#16 = .ram) ∧
      (∃ t, exec (.storeRR 5 6) (onDevice 0) = .next t) ∧ dataAddr (.storeRR 5 6) (onDevice 0) = some 0x0100#16 ∧
      memMap (onDevice 0).platform 0x0100#16 = .io :=
  ⟨⟨⟨6, rfl⟩, ⟨_, rfl⟩, by decide, by decide⟩, ⟨_, rfl⟩, by decide, by decide⟩

theorem witness_WritecrAndJumpFrame :
    (∃ a n, Instr.writecr 5 2 = .writecr a n) ∧ (∃ t, exec (.writecr 5 2) start = .next t) ∧ isJump (.jl (-6)) = true ∧
      ∃ t, exec (.jl (-6)) start = .next t :=
  ⟨⟨5, 2, rfl⟩, ⟨_, rfl⟩, by decide, ⟨_, rfl⟩⟩

/-- `TEST r2, r3`, a step whose `C` and `V` are free. -/
theorem witness_EveryStepKeepsTheInvariant : Inv (before 0x174C) ∧ ∃ t, step (before 0x174C) = .next t :=
  ⟨start_inv _ (by decide), ⟨_, rfl⟩⟩

/-- A store, the one instruction that writes memory. -/
theorem witness_NoStepChangesTheProgram : ∃ t, step (before 0x1BB8) = .next t := ⟨_, rfl⟩

theorem witness_ProgramsCannotObserveThePc :
    (∃ t, exec (.jz 6) start = .next t) ∧ ∃ t, exec (.loadRR 0 6) start = .next t := ⟨⟨_, rfl⟩, ⟨_, rfl⟩⟩

theorem witness_OnlyJumpsReadTheFlags : isJump (.movRR 1 2) = false ∧ ∃ t, exec (.movRR 1 2) start = .next t :=
  ⟨by decide, ⟨_, rfl⟩⟩

theorem witness_HaltedStatesStayForEver : AtEnd (before 0x8E00) := by
  change fetch (before 0x8E00) = .ok haltWord
  decide

/-- A state that is about to load the word at 0x0010, which holds 0x1234, in the byte order `o`. -/
def ordered (o : ByteOrder) : State :=
  { State.reset.withFetchWord 16 0x5A30 with
    mem := Memory.writeWord o (State.reset.withFetchWord 16 0x5A30).mem 0x0010#16 0x1234#16
    platform := { State.reset.platform with dataOrder := o } }

/-- The two states hold different bytes, and the load completes in both. -/
theorem ordered_differ :
    (ordered .little).mem ≠ (ordered .big).mem ∧ (∃ t, step (ordered .little) = .next t) ∧ ∃ t, step (ordered .big) = .next t :=
  ⟨by decide, ⟨_, rfl⟩, ⟨_, rfl⟩⟩

theorem ordered_address_even : (0x0010#16)[0] = false := by decide

theorem witness_DataByteOrderCannotBeObserved : SameButByteOrder (ordered .little) (ordered .big) where
  rest := rfl
  rom := by
    intro a ha
    have hlow : 0x8000 ≤ a.toNat := by
      change memMap State.reset.platform a = .rom at ha
      simp only [memMap] at ha
      have he := evenAddr_toNat a
      split at ha
      · next h =>
        rcases h with h | h
        · rw [h] at he
          change 0x8000 = _ at he
          omega
        · have h1 : Config.romBase.toNat ≤ (evenAddr a).toNat := h.1
          rw [he] at h1
          change 0x8000 ≤ _ at h1
          omega
      · simp only [State.reset, rangesRegion] at ha
        split at ha <;> cases ha
    simp only [ordered, Memory.read_writeWord]
    rw [if_neg, if_neg, if_neg, if_neg]
    all_goals
      intro h
      rw [h] at hlow
      revert hlow
      decide
  ram := by
    intro a ha hm
    by_cases h : a = 0x0010#16
    · subst h
      simp only [ordered, Memory.readWord_writeWord _ _ _ ha]
    · have hlow : a.toNat < 0x8000 := by
        by_contra hc
        change memMap State.reset.platform a = .ram at hm
        simp only [memMap] at hm
        have he := evenAddr_toNat a
        rw [if_pos] at hm
        · cases hm
        · right
          refine ⟨?_, ?_⟩
          · change Config.romBase.toNat ≤ (evenAddr a).toNat
            rw [he]
            change 0x8000 ≤ _
            omega
          · change (evenAddr a).toNat ≤ 0xFFFF
            have := (evenAddr a).isLt
            omega
      have hnone : ∀ x : Nat, x < 0x8000 → Memory.read (State.reset.withFetchWord 16 0x5A30).mem x = 0x00#8 := by
        intro x hx
        have hmem : (State.reset.withFetchWord 16 0x5A30).mem = [(0x8000, 0x5A#8), (0x8001, 0x30#8)] := by decide
        rw [hmem]
        simp only [Memory.read]
        rw [if_neg (by omega), if_neg (by omega)]
        rfl
      have h0 := ordered_address_even
      simp only [ordered]
      rw [Memory.readWord_writeWord_ne _ _ _ _ h0 ha h, Memory.readWord_writeWord_ne _ _ _ _ h0 ha h]
      have h1 : (a + 1).toNat < 0x8000 := by
        rw [even_add_one_toNat ha]
        rw [addr_bit_zero, decide_eq_false_iff_not] at ha
        omega
      simp only [Memory.readWord_eq, hnone _ hlow, hnone _ h1]

end Sys2Proof.Tests
end

section
/-! PROOFS. The frames of the arithmetic and the bitwise instructions (40_arith_logic.md sections 2 and 3, 00_scope.md R7).
Each of these instructions ends in one write-back, `storeResult` or `storeLogic`; its frame is the write-back's frame. -/

/-! ### What the two write-backs leave unchanged -/

namespace Sys2Proof.Machine

@[simp] theorem storeResult_mem (a : RegId) (r : Word × Flags) (s : State) : (storeResult a r s).mem = s.mem := rfl
@[simp] theorem storeResult_ioLog (a : RegId) (r : Word × Flags) (s : State) : (storeResult a r s).ioLog = s.ioLog := rfl
@[simp] theorem storeResult_draws (a : RegId) (r : Word × Flags) (s : State) : (storeResult a r s).draws = s.draws := rfl

@[simp] theorem storeResult_reg_of_ne {a x : RegId} (r : Word × Flags) (s : State) (h : x ≠ a) :
    (storeResult a r s).reg x = s.reg x := by
  simp [storeResult, h]

@[simp] theorem storeLogic_mem (a : RegId) (res : Word) (s : State) : (storeLogic a res s).mem = s.mem := rfl
@[simp] theorem storeLogic_ioLog (a : RegId) (res : Word) (s : State) : (storeLogic a res s).ioLog = s.ioLog := rfl

@[simp] theorem storeLogic_reg_of_ne {a x : RegId} (res : Word) (s : State) (h : x ≠ a) :
    (storeLogic a res s).reg x = s.reg x := by
  simp [storeLogic, h]

end Sys2Proof.Machine

namespace Sys2Proof.Claims

open Sys2Proof.Machine

/-! ### The parts of a frame that do not depend on the instruction -/

/-- No completed instruction changes a control register or the platform (R16, R4). -/
theorem keepsSpecials_of_exec {i : Instr} {s t : State} (h : exec i s = .next t) : KeepsSpecials s t :=
  have k := exec_keeps h
  ⟨k.cpuid1, k.cpuid2, k.feat, k.platform⟩

theorem keepsMemory_of_mem_eq {s t : State} (h : t.mem = s.mem) : KeepsMemory s t :=
  fun x => congrArg (Memory.read · x) h

/-! ### The obligations -/

/-- Settles O44: whichever of the six instructions runs, the next state is `storeResult` of some result and flags. -/
theorem arithmeticFrame : Obligations.ArithmeticFrame := by
  intro i a s t hi h
  obtain ⟨r, rfl⟩ : ∃ r, t = storeResult a r s := by
    obtain ⟨b, rfl | rfl | rfl⟩ | ⟨imm, rfl | rfl | rfl⟩ := hi
    all_goals exact ⟨_, (Host.Outcome.next.inj h).symm⟩
  exact ⟨fun _ hx => storeResult_reg_of_ne r s hx, keepsSpecials_of_exec h, keepsMemory_of_mem_eq (storeResult_mem a r s),
    storeResult_ioLog a r s, storeResult_draws a r s⟩

/-- Settles O45: whichever of the six instructions runs, the next state is `storeLogic` of some result. -/
theorem bitwiseFrame : Obligations.BitwiseFrame := by
  intro i a s t hi h
  obtain ⟨res, rfl⟩ : ∃ res, t = storeLogic a res s := by
    obtain ⟨b, rfl | rfl | rfl⟩ | ⟨imm, rfl | rfl | rfl⟩ := hi
    all_goals exact ⟨_, (Host.Outcome.next.inj h).symm⟩
  exact ⟨fun _ hx => storeLogic_reg_of_ne res s hx, keepsSpecials_of_exec h, keepsMemory_of_mem_eq (storeLogic_mem a res s),
    storeLogic_ioLog a res s⟩

end Sys2Proof.Claims
end

section
/-! PROOFS. The rules of the architectural state (10_state.md): its invariant, the constants, where pc goes, and what an
instruction can see of pc and the flags. The last two rest on one lemma, `exec_blind`: an instruction that is no jump reads
neither pc nor the flags. -/

/-! ### The invariant (R13, R16, R20), the constants (R16, R4) and the first fetch (R180) -/

namespace Sys2Proof.Machine

/-- What a completed instruction may change keeps the invariant. -/
theorem Inv.of_execKeeps {s t : State} (hs : Inv s) (k : ExecKeeps s t) : Inv t where
  memory := by
    obtain hm | ⟨addr, v, -, -, hm⟩ := k.memory
    · exact hm ▸ hs.memory
    · exact hm ▸ Memory.writeWord_wf _ addr v hs.memory
  flags := by
    obtain hf | hf := k.flags
    · exact hf ▸ hs.flags
    · exact hf
  cpuid1 := k.cpuid1.trans hs.cpuid1
  cpuid2 := k.cpuid2.trans hs.cpuid2
  feat := k.feat.trans hs.feat
  ioLog := by
    rw [k.platform]
    obtain hl | ⟨e, hl, he⟩ := k.ioLog
    · exact hl ▸ hs.ioLog
    · rw [hl]
      exact List.forall_mem_append.2 ⟨hs.ioLog, List.forall_mem_singleton.2 he⟩

/-- A word placed at an even address of ROM is the word that is fetched there. -/
theorem fetch_withFetchWord {s : State} (w : Word) (hpc : s.pc[0] = false) (hrom : memMap s.platform s.pc = .rom) :
    fetch (s.withFetchWord 16 w.toNat) = .ok w := by
  have hne : s.pc.toNat ≠ (s.pc + 1).toNat := by rw [even_add_one_toNat hpc]; omega
  have hw : BitVec.ofNat 16 (w.toNat % 2 ^ 16) = w := by
    rw [Nat.mod_eq_of_lt w.isLt, BitVec.ofNat_toNat, BitVec.setWidth_eq]
  simp only [fetch, State.withFetchWord, hw, hpc, memMap_add_one _ hpc, hrom, Memory.read_write, if_neg hne]
  simp

end Sys2Proof.Machine

namespace Sys2Proof.Claims

open Sys2Proof.Machine

/-- Settles O52: a completed step is a completed instruction, and what that may change keeps the invariant. -/
theorem everyStepKeepsTheInvariant : Obligations.EveryStepKeepsTheInvariant := by
  intro s t hs h
  obtain ⟨-, i, -, -, hi⟩ := step_next.1 h
  exact hs.of_execKeeps (exec_keeps hi)

/-- Settles O53: reset lists no cell and no event, and sets no flag. -/
theorem resetMeetsTheInvariant : Obligations.ResetMeetsTheInvariant where
  memory := State.reset_mem_wf
  flags := fun hzn => Bool.noConfusion hzn.1
  cpuid1 := rfl
  cpuid2 := rfl
  feat := rfl
  ioLog := List.forall_mem_nil _

/-- Settles O36: a completed step is a completed instruction. -/
theorem controlRegistersAndPlatformAreConstant : Obligations.ControlRegistersAndPlatformAreConstant := by
  intro s t h
  obtain ⟨-, i, -, -, hi⟩ := step_next.1 h
  exact keepsSpecials_of_exec hi

/-- Settles O11: the start address is an even address of ROM, where a placed word is fetched. -/
theorem executionStartsAtRom8000 : Obligations.ExecutionStartsAtRom8000 :=
  ⟨rfl, rfl, rfl, rfl, fun w => fetch_withFetchWord w (by decide) (by decide)⟩

end Sys2Proof.Claims
end

section
/-! PROOFS. Registers (10_state.md R10, R11) and the frame of the moves (41_move_slo.md). -/

namespace Sys2Proof.Machine

@[simp] theorem moveTo_flags (a : RegId) (v : Word) (s : State) : (moveTo a v s).flags = s.flags := rfl
@[simp] theorem moveTo_mem (a : RegId) (v : Word) (s : State) : (moveTo a v s).mem = s.mem := rfl
@[simp] theorem moveTo_ioLog (a : RegId) (v : Word) (s : State) : (moveTo a v s).ioLog = s.ioLog := rfl
@[simp] theorem moveTo_draws (a : RegId) (v : Word) (s : State) : (moveTo a v s).draws = s.draws := rfl

@[simp] theorem moveTo_reg_of_ne {a x : RegId} (v : Word) (s : State) (h : x ≠ a) : (moveTo a v s).reg x = s.reg x := by
  simp [moveTo, h]

/-- A completed READCR is a move of some value. -/
theorem exec_readcr_next {a : RegId} {n : Nat} {s t : State} (h : exec (.readcr a n) s = .next t) :
    ∃ v, t = moveTo a v s := by
  obtain ⟨v, -, rfl⟩ := finish_next.1 h
  exact ⟨v, rfl⟩

end Sys2Proof.Machine

namespace Sys2Proof.Claims

open Sys2Proof.Machine

/-- Settles O51: the register file's two laws, for the register written and for another. -/
theorem registerFileHasNoHardwiredRegister : Obligations.RegisterFileHasNoHardwiredRegister := by
  intro s a r v
  split
  · next h => rw [h, State.reg_setReg_self]
  · next h => exact State.reg_setReg_of_ne s v h

/-- Settles O47: whichever of the six instructions runs, the next state is `moveTo` of some value. -/
theorem moveFrame : Obligations.MoveFrame := by
  intro i a s t hi h
  obtain ⟨v, rfl⟩ : ∃ v, t = moveTo a v s := by
    obtain ⟨b, rfl | rfl⟩ | ⟨imm, rfl⟩ | ⟨n, rfl | rfl | rfl⟩ := hi
    case inr.inr.inr.inr => exact exec_readcr_next h
    all_goals exact ⟨_, (Host.Outcome.next.inj h).symm⟩
  exact ⟨fun _ hx => moveTo_reg_of_ne v s hx, moveTo_flags a v s, keepsSpecials_of_exec h,
    keepsMemory_of_mem_eq (moveTo_mem a v s), moveTo_ioLog a v s, moveTo_draws a v s⟩

end Sys2Proof.Claims
end

section
/-! PROOFS. Who reads pc and the flags (10_state.md R12, R13; 70_reset_and_hazards.md R181). -/

namespace Sys2Proof.Machine

/-! ### Data accesses at another pc, with other flags -/

theorem memRead_of_ram {addr : Word} {s : State} (h0 : addr[0] = false) (hm : memMap s.platform addr = .ram) :
    memRead addr s = .ok (Memory.readWord s.platform.dataOrder s.mem addr, s) := by
  simp [memRead, h0, hm]

theorem memRead_of_io {addr : Word} {s : State} (h0 : addr[0] = false) (hm : memMap s.platform addr = .io) :
    memRead addr s = .ok (ioRead addr s) := by
  simp [memRead, h0, hm]

theorem memWrite_of_ram {addr v : Word} {s : State} (h0 : addr[0] = false) (hm : memMap s.platform addr = .ram) :
    memWrite addr v s = .ok { s with mem := Memory.writeWord s.platform.dataOrder s.mem addr v } := by
  simp [memWrite, h0, hm]

theorem memWrite_of_io {addr v : Word} {s : State} (h0 : addr[0] = false) (hm : memMap s.platform addr = .io) :
    memWrite addr v s = .ok (ioWrite addr v s) := by
  simp [memWrite, h0, hm]

/-- The state at another pc and with other flags. -/
def State.withPcFlags (s : State) (p : Word) (f : Flags) : State := (s.setPc p).setFlags f

theorem memRead_withPcFlags {addr v : Word} {s t : State} (h : memRead addr s = .ok (v, t)) (p : Word) (f : Flags) :
    memRead addr (s.withPcFlags p f) = .ok (v, t.withPcFlags p f) := by
  obtain ⟨h0, ⟨hm, rfl, rfl⟩ | ⟨hm, rfl, rfl⟩⟩ := memRead_ok h
  · exact memRead_of_ram h0 hm
  · exact memRead_of_io h0 hm

theorem memWrite_withPcFlags {addr v : Word} {s t : State} (h : memWrite addr v s = .ok t) (p : Word) (f : Flags) :
    memWrite addr v (s.withPcFlags p f) = .ok (t.withPcFlags p f) := by
  obtain ⟨h0, ⟨hm, rfl⟩ | ⟨hm, rfl⟩⟩ := memWrite_ok h
  · exact memWrite_of_ram h0 hm
  · exact memWrite_of_io h0 hm

theorem readCR_withPcFlags {n : Nat} {v : Word} {s : State} (h : readCR n s = .ok v) (p : Word) (f : Flags) :
    readCR n (s.withPcFlags p f) = .ok v := by
  obtain ⟨rfl, rfl⟩ | ⟨rfl, rfl⟩ | ⟨rfl, rfl⟩ := readCR_ok h <;> rfl

/-! ### Instructions that see neither -/

/-- Where `m` completes, pc advances by 2; and from another pc and other flags `m` completes as well, with every other field
the same, the flags being either those of the first execution or, in both executions, the ones before. -/
def Blind (m : State → Host.Outcome State Fault Refusal) : Prop :=
  ∀ ⦃s t : State⦄, m s = .next t → t.pc = s.pc + 2#16 ∧
    ∀ (p : Word) (f : Flags), ∃ g, m (s.withPcFlags p f) = .next (t.withPcFlags (p + 2#16) g) ∧
      (g = t.flags ∨ g = f ∧ t.flags = s.flags)

/-- An operation that writes all four flags. -/
theorem blind_of_writes_flags {u : State → State} (hpc : ∀ s, (u s).pc = s.pc + 2#16)
    (hu : ∀ s p f, u (s.withPcFlags p f) = (u s).setPc (p + 2#16)) : Blind fun s => .next (u s) := by
  rintro s _ ⟨⟩
  exact ⟨hpc s, fun p f => ⟨(u s).flags, congrArg _ (hu s p f), .inl rfl⟩⟩

/-- An operation that keeps the flags. -/
theorem blind_of_keeps_flags {m : State → Host.Outcome State Fault Refusal}
    (hm : ∀ ⦃s t⦄, m s = .next t → t.pc = s.pc + 2#16 ∧ t.flags = s.flags ∧
      ∀ p f, m (s.withPcFlags p f) = .next (t.withPcFlags (p + 2#16) f)) : Blind m := by
  intro s t h
  obtain ⟨hpc, hflags, hmove⟩ := hm h
  exact ⟨hpc, fun p f => ⟨f, hmove p f, .inr ⟨rfl, hflags⟩⟩⟩

theorem moveTo_blind (a : RegId) {v : State → Word} (hv : ∀ s p f, v (s.withPcFlags p f) = v s) :
    Blind fun s => .next (moveTo a (v s) s) := by
  apply blind_of_keeps_flags
  rintro s _ ⟨⟩
  exact ⟨rfl, rfl, fun p f => by simp only [hv]; rfl⟩

theorem loadFrom_blind (a : RegId) {addr : State → Word} (ha : ∀ s p f, addr (s.withPcFlags p f) = addr s) :
    Blind fun s => loadFrom a (addr s) s := by
  apply blind_of_keeps_flags
  intro s t h
  obtain ⟨⟨v, u⟩, hr, rfl⟩ := finish_next.1 h
  have hu : u.pc = s.pc ∧ u.flags = s.flags := by
    obtain ⟨-, ⟨-, -, rfl⟩ | ⟨-, -, rfl⟩⟩ := memRead_ok hr <;> exact ⟨rfl, rfl⟩
  refine ⟨congrArg (· + 2#16) hu.1, hu.2, fun p f => ?_⟩
  simp only [ha]
  exact finish_next.2 ⟨_, memRead_withPcFlags hr p f, rfl⟩

theorem storeTo_blind (a : RegId) {addr : State → Word} (ha : ∀ s p f, addr (s.withPcFlags p f) = addr s) :
    Blind fun s => storeTo a (addr s) s := by
  apply blind_of_keeps_flags
  intro s t h
  obtain ⟨u, hw, rfl⟩ := finish_next.1 h
  have hu : u.pc = s.pc ∧ u.flags = s.flags := by
    obtain ⟨-, ⟨-, rfl⟩ | ⟨-, rfl⟩⟩ := memWrite_ok hw <;> exact ⟨rfl, rfl⟩
  refine ⟨congrArg (· + 2#16) hu.1, hu.2, fun p f => ?_⟩
  simp only [ha]
  exact finish_next.2 ⟨_, memWrite_withPcFlags hw p f, rfl⟩

theorem execReadcr_blind (a : RegId) (n : Nat) : Blind (execReadcr a n) := by
  apply blind_of_keeps_flags
  intro s t h
  obtain ⟨v, hr, rfl⟩ := finish_next.1 h
  exact ⟨rfl, rfl, fun p f => finish_next.2 ⟨v, readCR_withPcFlags hr p f, rfl⟩⟩

theorem execWritecr_blind (a : RegId) (n : Nat) : Blind (execWritecr a n) := by
  apply blind_of_keeps_flags
  intro s t h
  obtain ⟨u, hw, rfl⟩ := finish_next.1 h
  obtain ⟨hn, rfl⟩ := writeCR_ok hw
  exact ⟨rfl, rfl, fun p f => finish_next.2 ⟨_, if_pos hn, rfl⟩⟩

/-- An instruction that is no jump reads neither pc nor the flags. -/
theorem exec_blind {i : Instr} (hi : isJump i = false) : Blind (exec i) := by
  cases i
  case addRR | addRI | subRR | subRI | rsubRR | rsubRI | cmpRR | cmpRI | orRR | orRI | xorRR | xorRI | andRR | andRI
      | testRR | testRI =>
    exact blind_of_writes_flags (fun _ => rfl) fun _ _ _ => rfl
  case movzRR | movzRI | movRR | movRI | slo => exact moveTo_blind _ fun _ _ _ => rfl
  case loadRR | loadRI => exact loadFrom_blind _ fun _ _ _ => rfl
  case storeRR | storeRI => exact storeTo_blind _ fun _ _ _ => rfl
  case readcr a n => exact execReadcr_blind a n
  case writecr a n => exact execWritecr_blind a n
  all_goals exact Bool.noConfusion hi

/-! ### Jumps -/

/-- Every jump is `jumpIf` of a condition and a displacement. -/
theorem exec_of_isJump {i : Instr} (hi : isJump i = true) : ∃ cc d, ∀ s, exec i s = .next (jumpIf cc d s) := by
  cases i
  case jz | jnz | jn | jnn | jc | jnc | jv | jnv | jbe | ja | jl | jge | jle | jg | jmp | jnever =>
    exact ⟨_, _, fun _ => rfl⟩
  all_goals exact Bool.noConfusion hi

theorem jumpIf_setPc (cc : Cond) (d : Int) (s : State) (p : Word) :
    jumpIf cc d (s.setPc p) = (jumpIf cc d s).setPc (p + ((jumpIf cc d s).pc - s.pc)) := by
  rw [jumpIf_eq, jumpIf_eq]
  by_cases hc : condHolds cc s.flags = true <;> simp [hc, jumpTarget, State.setPc]

end Sys2Proof.Machine

namespace Sys2Proof.Claims

open Sys2Proof.Machine

/-! ### The table of the jumps (44_jumps.md R132) -/

/-- The instruction of a condition code jumps under the condition of the code's row in R132's table. -/
theorem exec_jumpInstr (cc : BitVec 4) (disp9 : BitVec 9) :
    ∃ c, (∀ s, exec (jumpInstr cc disp9) s = .next (jumpIf c disp9.toInt s)) ∧
      ∀ f, condHolds c f = true ↔ tableCond cc f := by
  have hcc := cc.isLt
  unfold jumpInstr tableCond
  interval_cases cc.toNat
  all_goals exact ⟨_, fun _ => rfl, fun f => by simp [condHolds]⟩

/-- The displacement field of a well-formed jump holds its displacement (R61). -/
theorem toInt_dispBits {d : Int} (h : DisplacementOk d) : (dispBits d).toInt = d :=
  BitVec.toInt_ofInt_eq_self (by decide) h.1 (by have := h.2; omega)

/-- The jump `j` of the code `cc` with a displacement in range is `jumpInstr` of that code and a displacement field. -/
theorem exists_jumpInstr_of_code (cc : BitVec 4) {j : Int → Instr} (hj : ∀ disp9, jumpInstr cc disp9 = j disp9.toInt)
    {d : Int} (hd : decide (DisplacementOk d) = true) : ∃ (cc : BitVec 4) (disp9 : BitVec 9), j d = jumpInstr cc disp9 :=
  ⟨cc, dispBits d, by rw [hj, toInt_dispBits (of_decide_eq_true hd)]⟩

/-- Every well-formed jump is the instruction of a condition code and a displacement field: its row of R132's table. -/
theorem exists_jumpInstr {i : Instr} (hi : isJump i = true) (hw : WellFormed i = true) :
    ∃ (cc : BitVec 4) (disp9 : BitVec 9), i = jumpInstr cc disp9 := by
  cases i
  case jz => exact exists_jumpInstr_of_code 0#4 (fun _ => rfl) hw
  case jnz => exact exists_jumpInstr_of_code 1#4 (fun _ => rfl) hw
  case jn => exact exists_jumpInstr_of_code 2#4 (fun _ => rfl) hw
  case jnn => exact exists_jumpInstr_of_code 3#4 (fun _ => rfl) hw
  case jc => exact exists_jumpInstr_of_code 4#4 (fun _ => rfl) hw
  case jnc => exact exists_jumpInstr_of_code 5#4 (fun _ => rfl) hw
  case jv => exact exists_jumpInstr_of_code 6#4 (fun _ => rfl) hw
  case jnv => exact exists_jumpInstr_of_code 7#4 (fun _ => rfl) hw
  case jbe => exact exists_jumpInstr_of_code 8#4 (fun _ => rfl) hw
  case ja => exact exists_jumpInstr_of_code 9#4 (fun _ => rfl) hw
  case jl => exact exists_jumpInstr_of_code 10#4 (fun _ => rfl) hw
  case jge => exact exists_jumpInstr_of_code 11#4 (fun _ => rfl) hw
  case jle => exact exists_jumpInstr_of_code 12#4 (fun _ => rfl) hw
  case jg => exact exists_jumpInstr_of_code 13#4 (fun _ => rfl) hw
  case jmp => exact exists_jumpInstr_of_code 14#4 (fun _ => rfl) hw
  case jnever => exact exists_jumpInstr_of_code 15#4 (fun _ => rfl) hw
  all_goals exact Bool.noConfusion hi

/-- Settles O43: an instruction that is no jump advances pc, a jump goes by its row of R132's table. -/
theorem pcMovesByTwoOrByTheDisplacement : Obligations.PcMovesByTwoOrByTheDisplacement := by
  intro i s t h
  refine ⟨fun hi => (exec_blind hi h).1, ?_, exists_jumpInstr⟩
  rintro cc disp9 rfl
  obtain ⟨c, hexec, hcond⟩ := exec_jumpInstr cc disp9
  obtain rfl : jumpIf c disp9.toInt s = t := Host.Outcome.next.inj ((hexec s).symm.trans h)
  rw [← hcond, jumpIf_eq, State.setPc_pc]
  exact ⟨fun hc => if_pos hc, fun hc => if_neg hc⟩

/-- Settles O55: a jump moves pc by a distance that no pc enters, the other instructions do not read pc. -/
theorem programsCannotObserveThePc : Obligations.ProgramsCannotObserveThePc := by
  intro i s t p h
  cases hi : isJump i with
  | true =>
    obtain ⟨cc, d, hexec⟩ := exec_of_isJump hi
    obtain rfl : jumpIf cc d s = t := Host.Outcome.next.inj ((hexec s).symm.trans h)
    rw [hexec, jumpIf_setPc]
  | false =>
    obtain ⟨hpc, hmove⟩ := exec_blind hi h
    obtain ⟨g, hg, hflags⟩ := hmove p s.flags
    have hgt : g = t.flags := hflags.elim id fun hk => hk.1.trans hk.2.symm
    have hdist : t.pc - s.pc = 2#16 := by rw [hpc, add_sub_cancel_left]
    rw [hdist]
    rw [hgt] at hg
    exact hg

/-- Settles O56: the execution from other flags is the one at the same pc. -/
theorem onlyJumpsReadTheFlags : Obligations.OnlyJumpsReadTheFlags := by
  intro i s t f hi h
  obtain ⟨hpc, hmove⟩ := exec_blind hi h
  obtain ⟨g, hg, hflags⟩ := hmove s.pc f
  rw [← hpc] at hg
  exact ⟨t.withPcFlags t.pc g, hg, rfl, hflags⟩

end Sys2Proof.Claims
end

section
/-! PROOFS. Fetch and the memory map (20_memory.md R33, R35), what a completed instruction does to memory and to the I/O
history (R36 to R39, R41), and that no step changes the program (R43). -/

namespace Sys2Proof.Machine

/-! ### The memory map -/

theorem rangesRegion_ne_rom (ranges : List Range) (a : Word) : rangesRegion ranges a ≠ .rom := by
  induction ranges with
  | nil => exact nofun
  | cons r rest ih =>
    simp only [rangesRegion]
    split
    · cases r.kind <;> exact nofun
    · exact ih

/-- The addresses of ROM: those from 0x8000 on whose pair begins at 0x8000 or not above `romEnd`. -/
theorem memMap_eq_rom_iff (p : Platform) (a : Word) :
    memMap p a = .rom ↔
      0x8000 ≤ a.toNat ∧ (a.toNat / 2 * 2 = 0x8000 ∨ a.toNat / 2 * 2 ≤ p.romEnd.toNat) := by
  have hbase : Config.romBase.toNat = 0x8000 := rfl
  simp only [memMap, ite_eq_left_iff, rangesRegion_ne_rom, imp_false, not_not, ← BitVec.toNat_inj, BitVec.le_def,
    evenAddr_toNat, hbase]
  omega

/-! ### Fetch -/

theorem fetch_of_odd {s : State} (h : s.pc[0] = true) : fetch s = .error (.fetchMisaligned s.pc) := by
  simp [fetch, h]

theorem fetch_of_not_rom {s : State} (h0 : s.pc[0] = false)
    (h : memMap s.platform s.pc ≠ .rom ∨ memMap s.platform (s.pc + 1) ≠ .rom) :
    fetch s = .error (.executeFromNonProgramMemory s.pc) := by
  rw [fetch, h0, if_neg Bool.false_ne_true, if_pos h]

theorem fetch_of_rom {s : State} (h0 : s.pc[0] = false) (h : memMap s.platform s.pc = .rom)
    (h' : memMap s.platform (s.pc + 1) = .rom) :
    fetch s = .ok (insnOfBytes (Memory.read s.mem s.pc.toNat) (Memory.read s.mem (s.pc + 1).toNat)) := by
  rw [fetch, h0, if_neg Bool.false_ne_true, if_neg (not_or.2 ⟨not_not.2 h, not_not.2 h'⟩)]

/-- A fetch depends on pc, the memory map and the bytes of ROM alone. -/
theorem fetch_congr {s t : State} (hpc : t.pc = s.pc) (hmap : ∀ a, memMap t.platform a = memMap s.platform a)
    (hrom : ∀ a, memMap s.platform a = .rom → Memory.read t.mem a.toNat = Memory.read s.mem a.toNat) :
    fetch t = fetch s := by
  simp only [fetch, hpc, hmap]
  split
  · rfl
  · split
    · rfl
    · next h =>
      push Not at h
      rw [hrom _ h.1, hrom _ h.2]

/-- A datum written in RAM changes no byte of ROM. -/
theorem Memory.read_writeWord_of_rom {p : Platform} {addr a : Word} (o : ByteOrder) (m : List Host.Cell) (v : Word)
    (h0 : addr[0] = false) (hm : memMap p addr = .ram) (ha : memMap p a = .rom) :
    Memory.read (Memory.writeWord o m addr v) a.toNat = Memory.read m a.toNat := by
  have hne {b : Word} (hb : memMap p b = .ram) : a.toNat ≠ b.toNat := fun e =>
    Region.noConfusion (ha.symm.trans (BitVec.eq_of_toNat_eq e ▸ hb))
  rw [Memory.read_writeWord, if_neg (hne ((memMap_add_one p h0).trans hm)), if_neg (hne hm)]

/-- A completed instruction changes no byte of ROM: what it writes lies in RAM. -/
theorem ExecKeeps.read_of_rom {s t : State} (k : ExecKeeps s t) {a : Word} (ha : memMap s.platform a = .rom) :
    Memory.read t.mem a.toNat = Memory.read s.mem a.toNat := by
  obtain hm | ⟨addr, v, h0, hram, hm⟩ := k.memory
  · rw [hm]
  · rw [hm, Memory.read_writeWord_of_rom _ _ _ h0 hram ha]

/-! ### What the instructions do to memory and the history -/

/-- A completed LOAD is a move: of the datum, or of the device's answer after one more event. -/
theorem loadFrom_next {a : RegId} {addr : Word} {s t : State} (h : loadFrom a addr s = .next t) :
    addr[0] = false ∧
      ((memMap s.platform addr = .ram ∧ t = moveTo a (Memory.readWord s.platform.dataOrder s.mem addr) s) ∨
        (memMap s.platform addr = .io ∧ t = moveTo a (Config.ioRead s.draws addr) (ioRead addr s).2)) := by
  obtain ⟨⟨v, u⟩, hr, rfl⟩ := finish_next.1 h
  obtain ⟨h0, ⟨hm, rfl, rfl⟩ | ⟨hm, rfl, rfl⟩⟩ := memRead_ok hr
  · exact ⟨h0, .inl ⟨hm, rfl⟩⟩
  · exact ⟨h0, .inr ⟨hm, rfl⟩⟩

/-- A completed STORE writes the datum or makes one more event, and advances pc. -/
theorem storeTo_next {a : RegId} {addr : Word} {s t : State} (h : storeTo a addr s = .next t) :
    addr[0] = false ∧
      ((memMap s.platform addr = .ram ∧
          t = { s with mem := Memory.writeWord s.platform.dataOrder s.mem addr (s.reg a) }.advance) ∨
        (memMap s.platform addr = .io ∧ t = (ioWrite addr (s.reg a) s).advance)) := by
  obtain ⟨u, hw, rfl⟩ := finish_next.1 h
  obtain ⟨h0, ⟨hm, rfl⟩ | ⟨hm, rfl⟩⟩ := memWrite_ok hw
  · exact ⟨h0, .inl ⟨hm, rfl⟩⟩
  · exact ⟨h0, .inr ⟨hm, rfl⟩⟩

theorem loadFrom_of_ram {a : RegId} {addr : Word} {s : State} (h0 : addr[0] = false)
    (hm : memMap s.platform addr = .ram) :
    loadFrom a addr s = .next (moveTo a (Memory.readWord s.platform.dataOrder s.mem addr) s) :=
  finish_next.2 ⟨_, memRead_of_ram h0 hm, rfl⟩

theorem loadFrom_mem {a : RegId} {addr : Word} {s t : State} (h : loadFrom a addr s = .next t) : t.mem = s.mem := by
  obtain ⟨-, ⟨-, rfl⟩ | ⟨-, rfl⟩⟩ := loadFrom_next h <;> rfl

theorem storeTo_reg {a : RegId} {addr : Word} {s t : State} (h : storeTo a addr s = .next t) (r : RegId) :
    t.reg r = s.reg r := by
  obtain ⟨-, ⟨-, rfl⟩ | ⟨-, rfl⟩⟩ := storeTo_next h <;> rfl

/-- A completed STORE to RAM writes the datum. -/
theorem storeTo_next_of_ram {a : RegId} {addr : Word} {s t : State} (hm : memMap s.platform addr = .ram)
    (h : storeTo a addr s = .next t) :
    addr[0] = false ∧ t = { s with mem := Memory.writeWord s.platform.dataOrder s.mem addr (s.reg a) }.advance := by
  obtain ⟨h0, ⟨-, ht⟩ | ⟨hio, -⟩⟩ := storeTo_next h
  · exact ⟨h0, ht⟩
  · exact Region.noConfusion (hm.symm.trans hio)

/-- After a STORE to RAM, a LOAD of the same address gets the stored value (R41). -/
theorem loadFrom_of_storeTo {a : RegId} {addr : Word} {s t : State} (hm : memMap s.platform addr = .ram) (c : RegId)
    (h : storeTo a addr s = .next t) : loadFrom c addr t = .next (moveTo c (s.reg a) t) := by
  obtain ⟨h0, rfl⟩ := storeTo_next_of_ram hm h
  rw [loadFrom_of_ram h0 (by exact hm), State.advance_platform, State.advance_mem, Memory.readWord_writeWord _ _ _ h0]

/-- A STORE to RAM changes no datum at another even address. -/
theorem readWord_of_storeTo {a : RegId} {addr b : Word} {s t : State} (hm : memMap s.platform addr = .ram)
    (h : storeTo a addr s = .next t) (hb : b[0] = false) (hne : b ≠ addr) :
    Memory.readWord t.platform.dataOrder t.mem b = Memory.readWord s.platform.dataOrder s.mem b := by
  obtain ⟨h0, rfl⟩ := storeTo_next_of_ram hm h
  exact Memory.readWord_writeWord_ne _ _ _ _ h0 hb hne

/-- LOAD, in either form (R111). -/
def IsLoad (i : Instr) : Prop := (∃ a b, i = .loadRR a b) ∨ ∃ a n, i = .loadRI a n

/-- STORE, in either form (R112). -/
def IsStore (i : Instr) : Prop := (∃ a b, i = .storeRR a b) ∨ ∃ a n, i = .storeRI a n

/-- An instruction with a data address is a LOAD or a STORE of that address. -/
theorem exec_of_dataAddr_some {i : Instr} {s : State} {addr : Word} (h : dataAddr i s = some addr) :
    ∃ a, (IsLoad i ∧ exec i s = loadFrom a addr s) ∨ (IsStore i ∧ exec i s = storeTo a addr s) := by
  cases i
  case loadRR => cases h; exact ⟨_, .inl ⟨.inl ⟨_, _, rfl⟩, rfl⟩⟩
  case loadRI => cases h; exact ⟨_, .inl ⟨.inr ⟨_, _, rfl⟩, rfl⟩⟩
  case storeRR => cases h; exact ⟨_, .inr ⟨.inl ⟨_, _, rfl⟩, rfl⟩⟩
  case storeRI => cases h; exact ⟨_, .inr ⟨.inr ⟨_, _, rfl⟩, rfl⟩⟩
  all_goals cases h

/-- An instruction without a data address leaves memory and the history as they were (R38). -/
theorem exec_of_dataAddr_none {i : Instr} {s t : State} (hd : dataAddr i s = none) (h : exec i s = .next t) :
    t.mem = s.mem ∧ t.ioLog = s.ioLog := by
  cases i
  case loadRR | loadRI | storeRR | storeRI => cases hd
  case readcr =>
    obtain ⟨v, rfl⟩ := exec_readcr_next h
    exact ⟨rfl, rfl⟩
  case writecr =>
    obtain ⟨u, hw, rfl⟩ := finish_next.1 h
    obtain ⟨-, rfl⟩ := writeCR_ok hw
    exact ⟨rfl, rfl⟩
  case jz | jnz | jn | jnn | jc | jnc | jv | jnv | jbe | ja | jl | jge | jle | jg | jmp | jnever =>
    cases h
    rw [jumpIf_eq]
    exact ⟨rfl, rfl⟩
  all_goals cases h; exact ⟨rfl, rfl⟩

end Sys2Proof.Machine

namespace Sys2Proof.Claims

open Sys2Proof.Machine

/-- Settles O54: a completed step keeps the memory map and writes no byte of ROM, and a fetch sees nothing else. -/
theorem noStepChangesTheProgram : Obligations.NoStepChangesTheProgram := by
  intro s t h p
  obtain ⟨-, i, -, -, hi⟩ := step_next.1 h
  have k := exec_keeps hi
  exact fetch_congr rfl (fun a => congrArg (memMap · a) k.platform) fun _ ha => k.read_of_rom ha

/-- Settles O30: the two bytes of the datum are read back in the order they were written. -/
theorem storeThenLoadReturnsTheValue : Obligations.StoreThenLoadReturnsTheValue := by
  intro s t a b c hram h
  have hbase : t.reg b = s.reg b := storeTo_reg h b
  exact ⟨(congrArg (loadFrom c · t) hbase).trans (loadFrom_of_storeTo hram c h), fun _ => readWord_of_storeTo hram h⟩

/-- Settles O31: an instruction that is no STORE has no data address or is a LOAD. -/
theorem onlyStoresWriteMemory : Obligations.OnlyStoresWriteMemory := by
  intro i s t hrr hri h
  cases hd : dataAddr i s with
  | none => exact (exec_of_dataAddr_none hd h).1
  | some addr =>
    obtain ⟨a, ⟨-, hexec⟩ | ⟨⟨_, _, hi⟩ | ⟨_, _, hi⟩, -⟩⟩ := exec_of_dataAddr_some hd
    · exact loadFrom_mem (hexec ▸ h)
    · exact absurd hi (hrr _ _)
    · exact absurd hi (hri _ _)

/-- Settles O32: the instruction has no data address, or is a LOAD or a STORE of RAM or of a device. -/
theorem ioHistoryGrowsByExactlyTheAccess : Obligations.IoHistoryGrowsByExactlyTheAccess := by
  intro i s t h
  cases hd : dataAddr i s with
  | none => exact ⟨nofun, fun _ => (exec_of_dataAddr_none hd h).2⟩
  | some addr =>
    obtain ⟨a, ⟨hi, hexec⟩ | ⟨hi, hexec⟩⟩ := exec_of_dataAddr_some hd <;> rw [hexec] at h
    · obtain ⟨-, ⟨hm, rfl⟩ | ⟨hm, rfl⟩⟩ := loadFrom_next h
      · exact ⟨by rintro _ ⟨⟩ hio; exact Region.noConfusion (hm.symm.trans hio), fun _ => rfl⟩
      · exact ⟨by rintro _ ⟨⟩ -; exact ⟨_, .inl ⟨rfl, hi⟩⟩, fun hne => absurd hm (hne _ rfl)⟩
    · obtain ⟨-, ⟨hm, rfl⟩ | ⟨hm, rfl⟩⟩ := storeTo_next h
      · exact ⟨by rintro _ ⟨⟩ hio; exact Region.noConfusion (hm.symm.trans hio), fun _ => rfl⟩
      · exact ⟨by rintro _ ⟨⟩ -; exact ⟨_, .inr ⟨rfl, hi⟩⟩, fun hne => absurd hm (hne _ rfl)⟩

/-- Settles O33: `memMap_eq_rom_iff` says of numbers which addresses are ROM; the rest is arithmetic. -/
theorem memoryMapHasTheSpecShape : Obligations.MemoryMapHasTheSpecShape := by
  intro p a
  have hbase : (0x8000#16).toNat = 0x8000 := rfl
  refine ⟨?_, fun h0 => memMap_add_one p h0, ?_, ?_⟩
  · rw [memMap_eq_rom_iff, hbase]
    omega
  · simp only [memMap_eq_rom_iff, BitVec.le_def, hbase]
    intro ha
    exact ⟨ha.1, fun b hb hba => by omega⟩
  · intro hodd hend
    rw [addr_bit_zero, decide_eq_true_eq] at hodd
    simp only [memMap_eq_rom_iff, BitVec.le_def, hbase] at hend ⊢
    change 0x8001 ≤ _ at hend
    omega

/-- Settles O6: the two checks of `Fetch` in their order, and the two halves of the word it returns. -/
theorem fetchChecksAlignmentThenRegion : Obligations.FetchChecksAlignmentThenRegion := fun _ =>
  ⟨fetch_of_odd, fetch_of_not_rom, fun h0 h h' =>
    ⟨_, fetch_of_rom h0 h h', firstByte_insnOfBytes _ _, secondByte_insnOfBytes _ _⟩⟩

end Sys2Proof.Claims
end

section
/-! PROOFS. Data byte order (20_memory.md R31): two states that differ in it alone take the same steps. The proof is a
simulation: every operation keeps the relation `SameButByteOrder`, and a store keeps it because both states write the same
datum, each in its own order. -/

namespace Sys2Proof.Machine

/-! ### What the relation gives of two states -/

/-- The state with another memory and another platform. -/
def State.withData (s : State) (m : List Host.Cell) (p : Platform) : State := { s with mem := m, platform := p }

/-- Related states agree on whatever depends neither on memory nor on the platform. -/
theorem SameButByteOrder.congr {α : Type} {f : State → α} {s t : State} (h : SameButByteOrder s t)
    (hf : ∀ m p, f (s.withData m p) = f s) : f t = f s :=
  (congrArg f h.rest).trans (hf _ _)

theorem SameButByteOrder.pc_eq {s t : State} (h : SameButByteOrder s t) : t.pc = s.pc := h.congr fun _ _ => rfl

theorem SameButByteOrder.reg_eq {s t : State} (h : SameButByteOrder s t) (r : RegId) : t.reg r = s.reg r :=
  h.congr (f := fun s => s.reg r) fun _ _ => rfl

theorem SameButByteOrder.memMap_eq {s t : State} (h : SameButByteOrder s t) (a : Word) :
    memMap t.platform a = memMap s.platform a := by
  rw [h.rest]
  rfl

theorem SameButByteOrder.fetch_eq {s t : State} (h : SameButByteOrder s t) : fetch t = fetch s :=
  fetch_congr h.pc_eq h.memMap_eq h.rom

/-! ### Updates that keep the relation -/

/-- The update neither reads nor writes memory and the platform. -/
def KeepsData (u : State → State) : Prop := ∀ s m p, u (s.withData m p) = (u s).withData m p

theorem KeepsData.mem {u : State → State} (hu : KeepsData u) (s : State) : (u s).mem = s.mem :=
  (congrArg State.mem (hu s s.mem s.platform) :)

theorem KeepsData.platform {u : State → State} (hu : KeepsData u) (s : State) : (u s).platform = s.platform :=
  (congrArg State.platform (hu s s.mem s.platform) :)

theorem jumpIf_keepsData (cc : Cond) (d : Int) : KeepsData (jumpIf cc d) := by
  intro s m p
  rw [jumpIf_eq, jumpIf_eq]
  rfl

theorem SameButByteOrder.map {u : State → State} (hu : KeepsData u) {s t : State} (h : SameButByteOrder s t) :
    SameButByteOrder (u s) (u t) where
  rest := by
    rw [hu.mem, hu.platform, hu.platform]
    exact (congrArg u h.rest).trans (hu _ _ _)
  rom := by
    rw [hu.mem, hu.mem, hu.platform]
    exact h.rom
  ram := by
    rw [hu.mem, hu.mem, hu.platform, hu.platform]
    exact h.ram

/-- Both states write one datum of RAM, each in its own order. -/
theorem SameButByteOrder.writeWord {s t : State} (h : SameButByteOrder s t) {addr : Word} (v : Word)
    (h0 : addr[0] = false) (hm : memMap s.platform addr = .ram) :
    SameButByteOrder { s with mem := Memory.writeWord s.platform.dataOrder s.mem addr v }
      { t with mem := Memory.writeWord t.platform.dataOrder t.mem addr v } where
  rest := congrArg (fun x : State => { x with mem := Memory.writeWord t.platform.dataOrder t.mem addr v }) h.rest
  rom := fun a ha => by
    rw [Memory.read_writeWord_of_rom _ _ _ h0 hm ha, Memory.read_writeWord_of_rom _ _ _ h0 hm ha]
    exact h.rom a ha
  ram := fun a ha hram => by
    by_cases hne : a = addr
    · subst hne
      rw [Memory.readWord_writeWord _ _ _ h0, Memory.readWord_writeWord _ _ _ h0]
    · rw [Memory.readWord_writeWord_ne _ _ _ _ h0 ha hne, Memory.readWord_writeWord_ne _ _ _ _ h0 ha hne]
      exact h.ram a ha hram

/-! ### Operations that may fault -/

/-- Both results are values in the relation `R`, or both are the same fault. -/
def ResultsAgree {α : Type} (R : α → α → Prop) (r r' : Except Fault α) : Prop :=
  match r, r' with
  | .ok x, .ok y => R x y
  | .error f, .error g => f = g
  | _, _ => False

theorem ResultsAgree.of_eq {α : Type} {r r' : Except Fault α} (h : r' = r) : ResultsAgree Eq r r' := by
  subst h
  cases r' <;> rfl

theorem ResultsAgree.finish {α : Type} {R : α → α → Prop} {S : State → State → Prop} {r r' : Except Fault α}
    {k k' : α → State} (h : ResultsAgree R r r') (hk : ∀ x y, R x y → S (k x) (k' y)) :
    OutcomesAgree S (finish r k) (finish r' k') := by
  cases r <;> cases r'
  case ok.ok => exact hk _ _ h
  case error.error => exact h
  all_goals exact h.elim

theorem memRead_resultsAgree {s t : State} (h : SameButByteOrder s t) (addr : Word) :
    ResultsAgree (fun x y => x.1 = y.1 ∧ SameButByteOrder x.2 y.2) (memRead addr s) (memRead addr t) := by
  unfold memRead
  rw [h.memMap_eq]
  split
  · exact congrArg _ h.pc_eq.symm
  · next h0 =>
    cases hm : memMap s.platform addr
    case rom | none => exact congrArg _ h.pc_eq.symm
    case ram => exact ⟨(h.ram addr (Bool.eq_false_of_not_eq_true h0) hm).symm, h⟩
    case io =>
      exact ⟨(h.congr (f := fun s => (ioRead addr s).1) fun _ _ => rfl).symm,
        h.map (u := fun s => (ioRead addr s).2) fun _ _ _ => rfl⟩

theorem memWrite_resultsAgree {s t : State} (h : SameButByteOrder s t) (addr v : Word) :
    ResultsAgree SameButByteOrder (memWrite addr v s) (memWrite addr v t) := by
  unfold memWrite
  rw [h.memMap_eq]
  split
  · exact congrArg _ h.pc_eq.symm
  · next h0 =>
    cases hm : memMap s.platform addr
    case rom | none => exact congrArg _ h.pc_eq.symm
    case ram => exact h.writeWord v (Bool.eq_false_of_not_eq_true h0) hm
    case io => exact h.map (u := ioWrite addr v) fun _ _ _ => rfl

theorem writeCR_resultsAgree {s t : State} (h : SameButByteOrder s t) (n : Nat) (v : Word) :
    ResultsAgree SameButByteOrder (writeCR n v s) (writeCR n v t) := by
  unfold writeCR
  rw [h.pc_eq]
  split
  · exact h
  · rfl

/-! ### Instructions -/

/-- Executed in related states, `m` ends in related states or in the same fault. -/
def OrderBlind (m : State → Host.Outcome State Fault Refusal) : Prop :=
  ∀ ⦃s t⦄, SameButByteOrder s t → OutcomesAgree SameButByteOrder (m s) (m t)

theorem orderBlind_of_keepsData {u : State → State} (hu : KeepsData u) : OrderBlind fun s => .next (u s) :=
  fun _ _ h => h.map hu

theorem loadFrom_orderBlind (a : RegId) {addr : State → Word} (ha : ∀ s m p, addr (s.withData m p) = addr s) :
    OrderBlind fun s => loadFrom a (addr s) s := by
  intro s t h
  simp only [h.congr (ha s)]
  refine (memRead_resultsAgree h _).finish ?_
  rintro ⟨v, s'⟩ ⟨-, t'⟩ ⟨rfl, h'⟩
  exact h'.map (u := moveTo a v) fun _ _ _ => rfl

theorem storeTo_orderBlind (a : RegId) {addr : State → Word} (ha : ∀ s m p, addr (s.withData m p) = addr s) :
    OrderBlind fun s => storeTo a (addr s) s := by
  intro s t h
  simp only [h.congr (ha s), storeTo, h.reg_eq]
  exact (memWrite_resultsAgree h _ _).finish fun _ _ h' => h'.map (u := State.advance) fun _ _ _ => rfl

theorem execReadcr_orderBlind (a : RegId) (n : Nat) : OrderBlind (execReadcr a n) := by
  intro s t h
  refine (ResultsAgree.of_eq (h.congr (f := readCR n) fun _ _ => rfl)).finish ?_
  rintro v _ rfl
  exact h.map (u := moveTo a v) fun _ _ _ => rfl

theorem execWritecr_orderBlind (a : RegId) (n : Nat) : OrderBlind (execWritecr a n) := by
  intro s t h
  simp only [execWritecr, h.reg_eq]
  exact (writeCR_resultsAgree h _ _).finish fun _ _ h' => h'.map (u := State.advance) fun _ _ _ => rfl

theorem exec_orderBlind (i : Instr) : OrderBlind (exec i) := by
  cases i
  case addRR | addRI | subRR | subRI | rsubRR | rsubRI | cmpRR | cmpRI | orRR | orRI | xorRR | xorRI | andRR | andRI
      | testRR | testRI | movzRR | movzRI | movRR | movRI | slo =>
    exact orderBlind_of_keepsData fun _ _ _ => rfl
  case loadRR | loadRI => exact loadFrom_orderBlind _ fun _ _ _ => rfl
  case storeRR | storeRI => exact storeTo_orderBlind _ fun _ _ _ => rfl
  case readcr a n => exact execReadcr_orderBlind a n
  case writecr a n => exact execWritecr_orderBlind a n
  all_goals exact orderBlind_of_keepsData (jumpIf_keepsData _ _)

end Sys2Proof.Machine

namespace Sys2Proof.Claims

open Sys2Proof.Machine

/-- Settles O57: related states fetch the same word, and what it decodes to is blind to the byte order. -/
theorem dataByteOrderCannotBeObserved : Obligations.DataByteOrderCannotBeObserved := by
  intro s t h
  unfold step
  rw [h.fetch_eq]
  cases fetch s with
  | error f => exact rfl
  | ok w =>
    cases hd : decode w with
    | error c => simp only [hd]; exact congrArg _ h.pc_eq.symm
    | ok i => simp only [hd]; exact exec_orderBlind i h

end Sys2Proof.Claims
end

section
/-! PROOFS. The encoding family (30_encoding.md): the fields of the three formats, the decoder by the rows of R62's table,
the words of the spec's encoding formulas, and the instructions with a second name (R63, R64, R71, R72). -/

namespace Sys2Proof

/-! ### The fields of a word of each format (R52) -/

theorem extractLsb'_eq_of_bits {w : Word} {start len : Nat} {x : BitVec len}
    (h : ∀ k < len, w.getLsbD (start + k) = x.getLsbD k) : w.extractLsb' start len = x := by
  apply BitVec.eq_of_getLsbD_eq
  intro k hk
  simp [hk, h k hk]

theorem rrWord_fields (op : BitVec 4) (a b : RegId) :
    fmtField (rrWord op a b) = 0b00#2 ∧ sizeField (rrWord op a b) = 0b01#2 ∧ opField (rrWord op a b) = op ∧
      aField (rrWord op a b) = a ∧ bField (rrWord op a b) = b ∧ modeField (rrWord op a b) = 0b00#2 := by
  have bits {start len : Nat} {x : BitVec len} := extractLsb'_eq_of_bits (w := rrWord op a b) (start := start) (x := x)
  refine ⟨bits ?_, bits ?_, bits ?_, congrArg BitVec.toFin (bits (x := (.ofFin a : BitVec 3)) ?_),
    congrArg BitVec.toFin (bits (x := (.ofFin b : BitVec 3)) ?_), bits ?_⟩
  all_goals
    intro k hk
    rw [rrWord_getLsbD]
    interval_cases k <;> simp

theorem riWord_fields (op : BitVec 4) (a : RegId) (imm5 : BitVec 5) :
    fmtField (riWord op a imm5) = 0b01#2 ∧ sizeField (riWord op a imm5) = 0b01#2 ∧ opField (riWord op a imm5) = op ∧
      aField (riWord op a imm5) = a ∧ immField (riWord op a imm5) = imm5 := by
  have bits {start len : Nat} {x : BitVec len} := extractLsb'_eq_of_bits (w := riWord op a imm5) (start := start) (x := x)
  refine ⟨bits ?_, bits ?_, bits ?_, congrArg BitVec.toFin (bits (x := (.ofFin a : BitVec 3)) ?_), bits ?_⟩
  all_goals
    intro k hk
    rw [riWord_getLsbD]
    interval_cases k <;> simp

theorem jumpWord_fields (cc : BitVec 4) (disp9 : BitVec 9) :
    fmtField (jumpWord cc disp9) = 0b10#2 ∧ jumpReservedBit (jumpWord cc disp9) = false ∧
      opField (jumpWord cc disp9) = cc ∧ dispField (jumpWord cc disp9) = disp9 := by
  refine ⟨extractLsb'_eq_of_bits ?_, jumpWord_getLsbD cc disp9 13, extractLsb'_eq_of_bits ?_,
    BitVec.eq_of_getLsbD_eq ?_⟩
  all_goals
    intro k hk
    simp only [dispField_getLsbD, jumpWord_getLsbD]
    interval_cases k <;> simp

/-! ### The decoder on the words of each format (R66) -/

theorem decode_of_jump_fields {w : Word} (hf : fmtField w = 0b10#2) (hj : jumpReservedBit w = false) :
    decode w = .ok (jumpInstr (opField w) (dispField w)) := by
  simp [decode, hf, hj]

theorem decode_rrWord {op : BitVec 4} {a b : RegId} {i : Instr} (h : rrInstr op a b = some i) :
    decode (rrWord op a b) = .ok i := by
  obtain ⟨hf, hs, ho, ha, hb, hm⟩ := rrWord_fields op a b
  simp [decode, hf, hs, ho, ha, hb, hm, h]

theorem decode_riWord {op : BitVec 4} {a : RegId} {imm5 : BitVec 5} {i : Instr} (h : riInstr op a imm5 = some i) :
    decode (riWord op a imm5) = .ok i := by
  obtain ⟨hf, hs, ho, ha, hi⟩ := riWord_fields op a imm5
  simp [decode, hf, hs, ho, ha, hi, h]

theorem decode_jumpWord (cc : BitVec 4) (disp9 : BitVec 9) : decode (jumpWord cc disp9) = .ok (jumpInstr cc disp9) := by
  obtain ⟨hf, hj, ho, hd⟩ := jumpWord_fields cc disp9
  rw [decode_of_jump_fields hf hj, ho, hd]

/-! ### The decoder on every word, by the rows of R62's table -/

theorem rrInstr_eq_none_iff {op : BitVec 4} {a b : RegId} : rrInstr op a b = none ↔ 12 ≤ op.toNat := by
  have hop := op.isLt
  unfold rrInstr
  interval_cases op.toNat <;> simp

theorem riInstr_eq_none_iff {op : BitVec 4} {a : RegId} {imm5 : BitVec 5} :
    riInstr op a imm5 = none ↔ op.toNat = 13 := by
  have hop := op.isLt
  unfold riInstr
  interval_cases op.toNat <;> simp

/-- The nine rows of R62's table in decoding order, a constructor each: the condition on the fields of `w` and what `w`
is then. -/
inductive DecodeRow (w : Word) : Except Reserved Instr → Prop where
  | variableLength : fmtField w = 0b11#2 → DecodeRow w (.error .variableLength)
  | jumpSpace : fmtField w = 0b10#2 → jumpReservedBit w = true → DecodeRow w (.error .jumpSpace)
  | jump : fmtField w = 0b10#2 → jumpReservedBit w = false →
      DecodeRow w (.ok (jumpInstr (opField w) (dispField w)))
  | operationSize : fmtField w = 0b00#2 ∨ fmtField w = 0b01#2 → sizeField w ≠ 0b01#2 →
      DecodeRow w (.error .operationSize)
  | noTwoRegisterForm : fmtField w = 0b00#2 → sizeField w = 0b01#2 → 12 ≤ (opField w).toNat →
      DecodeRow w (.error .noTwoRegisterForm)
  | addressingMode : fmtField w = 0b00#2 → sizeField w = 0b01#2 → ¬ 12 ≤ (opField w).toNat → modeField w ≠ 0b00#2 →
      DecodeRow w (.error .addressingMode)
  | twoRegister {i : Instr} : fmtField w = 0b00#2 → sizeField w = 0b01#2 → ¬ 12 ≤ (opField w).toNat →
      modeField w = 0b00#2 → rrInstr (opField w) (aField w) (bField w) = some i → DecodeRow w (.ok i)
  | opcode13 : fmtField w = 0b01#2 → sizeField w = 0b01#2 → (opField w).toNat = 13 → DecodeRow w (.error .opcode13)
  | immediate {i : Instr} : fmtField w = 0b01#2 → sizeField w = 0b01#2 → ¬ (opField w).toNat = 13 →
      riInstr (opField w) (aField w) (immField w) = some i → DecodeRow w (.ok i)

theorem fmtField_cases (w : Word) :
    fmtField w = 0b00#2 ∨ fmtField w = 0b01#2 ∨ fmtField w = 0b10#2 ∨ fmtField w = 0b11#2 := by
  have all : ∀ f : BitVec 2, f = 0b00#2 ∨ f = 0b01#2 ∨ f = 0b10#2 ∨ f = 0b11#2 := by decide
  exact all _

/-- The decoder answers by one of the nine rows. -/
theorem decodeRow_decode (w : Word) : DecodeRow w (decode w) := by
  unfold decode
  rcases fmtField_cases w with hf | hf | hf | hf <;> simp only [hf, reduceIte, BitVec.reduceEq]
  · split
    · next hs => exact .operationSize (.inl hf) hs
    · next hs =>
      split
      · next hn => exact .noTwoRegisterForm hf (not_not.1 hs) (rrInstr_eq_none_iff.1 hn)
      · next i hi =>
        have hop : ¬ 12 ≤ (opField w).toNat := fun h => by simp [rrInstr_eq_none_iff.2 h] at hi
        split
        · next hm => exact .addressingMode hf (not_not.1 hs) hop hm
        · next hm => exact .twoRegister hf (not_not.1 hs) hop (not_not.1 hm) hi
  · split
    · next hs => exact .operationSize (.inr hf) hs
    · next hs =>
      split
      · next hn => exact .opcode13 hf (not_not.1 hs) (riInstr_eq_none_iff.1 hn)
      · next i hi =>
        exact .immediate hf (not_not.1 hs) (fun h => by simp [riInstr_eq_none_iff.2 h] at hi) hi
  · split
    · next hj => exact .jumpSpace hf hj
    · next hj => exact .jump hf (Bool.eq_false_iff.2 hj)
  · exact .variableLength hf

/-! ### R62's bit ranges as fields -/

theorem bits15to14_eq_iff (w : Word) (f : BitVec 2) : w.extractLsb 15 14 = f ↔ fmtField w = f := .rfl
theorem bit13_eq (w : Word) : w[13] = jumpReservedBit w := rfl
theorem bits13to12_eq_iff (w : Word) (s : BitVec 2) : w.extractLsb 13 12 = s ↔ sizeField w = s := .rfl
theorem bits1to0_eq_iff (w : Word) (m : BitVec 2) : w.extractLsb 1 0 = m ↔ modeField w = m := .rfl

theorem bits11to8_eq_iff (w : Word) (op : BitVec 4) : w.extractLsb 11 8 = op ↔ (opField w).toNat = op.toNat :=
  BitVec.toNat_inj.symm

theorem bit15_eq_false_iff (w : Word) : w[15] = false ↔ fmtField w = 0b00#2 ∨ fmtField w = 0b01#2 := by
  have hw := w.isLt
  simp only [fmtField, ← BitVec.toNat_inj, BitVec.extractLsb'_toNat, BitVec.toNat_ofNat, Nat.shiftRight_eq_div_pow,
    ← BitVec.getLsbD_eq_getElem, BitVec.getLsbD, Nat.testBit_eq_decide_div_mod_eq, decide_eq_false_iff_not]
  omega

/-- The upper four bits are the format marker and the operation size. -/
theorem bits15to12_eq_iff (w : Word) (f s : BitVec 2) :
    w.extractLsb 15 12 = f ++ s ↔ fmtField w = f ∧ sizeField w = s := by
  have hs := s.isLt
  have happend : (f ++ s).toNat = f.toNat * 2 ^ 2 + s.toNat := by
    rw [BitVec.toNat_append, ← Nat.shiftLeft_add_eq_or_of_lt hs, Nat.shiftLeft_eq]
  simp only [fmtField, sizeField, ← BitVec.toNat_inj, BitVec.extractLsb_toNat, BitVec.extractLsb'_toNat, happend,
    Nat.shiftRight_eq_div_pow]
  omega

/-- The opcodes 12 to 15 are those whose upper two bits are set. -/
theorem bits11to10_eq_iff (w : Word) : w.extractLsb 11 10 = 0b11#2 ↔ 12 ≤ (opField w).toNat := by
  simp only [opField, ← BitVec.toNat_inj, BitVec.extractLsb_toNat, BitVec.extractLsb'_toNat, BitVec.toNat_ofNat,
    Nat.shiftRight_eq_div_pow]
  omega

/-! ### The never-jump words (R64) -/

/-- R64's mask leaves the fields of a jump, but the displacement, as they are. -/
theorem jump_fields_of_mask (w : Word) :
    fmtField (w &&& 0xEF00#16) = fmtField w ∧ jumpReservedBit (w &&& 0xEF00#16) = jumpReservedBit w ∧
      opField (w &&& 0xEF00#16) = opField w :=
  ⟨BitVec.extractLsb'_and.trans BitVec.and_allOnes, by simp [jumpReservedBit],
    BitVec.extractLsb'_and.trans BitVec.and_allOnes⟩

theorem decode_of_neverJump {w : Word} (h : w &&& 0xEF00#16 = 0x8F00#16) :
    decode w = .ok (.jnever (dispField w).toInt) := by
  obtain ⟨hf, hj, ho⟩ := jump_fields_of_mask w
  rw [h] at hf hj ho
  rw [decode_of_jump_fields hf.symm hj.symm, ← ho]
  rfl

end Sys2Proof

namespace Sys2Proof.Machine

/-! ### Subtraction (R81): the difference and the flags without the 17-bit sum -/

theorem subFlags_eq (l r : Word) :
    subFlags l r = (l - r, { z := decide (l - r = 0#16), n := (l - r)[15], c := decide (l.toNat < r.toNat),
                             v := l[15] != r[15] && (l - r)[15] != l[15] }) := by
  have hres : BitVec.setWidth 16 (l.setWidth 17 + (~~~r).setWidth 17 + 1#17) = l - r := by
    rw [BitVec.setWidth_add _ _ (by decide), BitVec.setWidth_add _ _ (by decide)]
    simp [BitVec.sub_eq_add_neg, BitVec.neg_eq_not_add, BitVec.add_assoc]
  have hborrow : (!(l.setWidth 17 + (~~~r).setWidth 17 + 1#17)[16]) = decide (l.toNat < r.toNat) := by
    have hl := l.isLt
    have hr := r.isLt
    simp only [← BitVec.getLsbD_eq_getElem, BitVec.getLsbD, Nat.testBit_eq_decide_div_mod_eq, BitVec.toNat_add,
      BitVec.toNat_setWidth, BitVec.toNat_not, BitVec.toNat_ofNat, ← decide_not, decide_eq_decide]
    omega
  simp only [subFlags, hres, hborrow]
  rfl

/-- Negation: only 0 has no borrow, only 0x8000 has no negative (R71). -/
theorem subFlags_zero_left (r : Word) :
    subFlags 0#16 r =
      (-r, { z := decide (-r = 0#16), n := (-r)[15], c := decide (r ≠ 0#16), v := decide (r = 0x8000#16) }) := by
  have hc : (0#16).toNat < r.toNat ↔ r ≠ 0#16 := by
    rw [Ne, ← BitVec.toNat_inj]
    exact Nat.pos_iff_ne_zero
  have hv : ((0#16)[15] != r[15] && (-r)[15] != (0#16)[15]) = decide (r = 0x8000#16) := by
    have hneg : (-r)[15] = (r != 0#16 && r != 0x8000#16 ^^ r[15]) := BitVec.msb_neg (x := r)
    by_cases h0 : r = 0#16
    · subst h0; decide
    · by_cases hmin : r = 0x8000#16
      · subst hmin; decide
      · simp [hneg, bne, beq_eq_false_iff_ne.2 h0, beq_eq_false_iff_ne.2 hmin, hmin]
  rw [subFlags_eq, BitVec.zero_sub, hv, decide_eq_decide.2 hc]

/-- Complement: a subtraction from all ones never borrows and never overflows (R71). -/
theorem subFlags_allOnes_left (r : Word) :
    subFlags 0xFFFF#16 r = (~~~r, { z := decide (~~~r = 0#16), n := (~~~r)[15], c := false, v := false }) := by
  have hres : 0xFFFF#16 - r = ~~~r := by
    apply BitVec.eq_of_toNat_eq
    bv_omega
  have hc : ¬ (0xFFFF#16).toNat < r.toNat := Nat.not_lt.2 (Nat.le_pred_of_lt r.isLt)
  have hv : ((0xFFFF#16)[15] != r[15] && (~~~r)[15] != (0xFFFF#16)[15]) = false := by simp
  rw [subFlags_eq, hres, hv, decide_eq_false hc]

/-! ### Immediates (R58) and the jump to itself -/

theorem signedImm_toInt (imm5 : BitVec 5) : signedImm imm5.toInt = imm5.signExtend 16 := rfl

theorem unsignedImm_toNat (imm5 : BitVec 5) : unsignedImm imm5.toNat = imm5.setWidth 16 :=
  BitVec.ofNat_toNat 16 imm5

/-- Below 16 the two extensions of an immediate agree (R58). -/
theorem unsignedImm_eq_signedImm {imm5 : BitVec 5} (h : imm5.toNat ≤ 15) :
    unsignedImm imm5.toNat = signedImm imm5.toInt := by
  have hmsb : imm5.msb = false := BitVec.msb_eq_false_iff_two_mul_lt.2 (by omega)
  rw [unsignedImm_toNat, signedImm_toInt, BitVec.signExtend_eq_setWidth_of_msb_false hmsb]

/-- A jump by 0 bytes whose condition holds goes to itself. -/
theorem jumpIf_always_zero (s : State) : jumpIf .always 0 s = s := by
  simp [jumpIf_eq, condHolds, jumpTarget, State.setPc]

end Sys2Proof.Machine

namespace Sys2Proof.Claims

open Sys2Proof.Machine

/-! ### The spec's encoding formulas give the words of the formats -/

theorem regId_testBit_of_three_le (a : RegId) {k : Nat} (h : 3 ≤ k) : a.val.testBit k = false :=
  BitVec.getLsbD_of_ge (BitVec.ofFin a : BitVec 3) k h

theorem getLsbD_ofNat_shiftLeft (x n k : Nat) :
    (BitVec.ofNat 16 (x <<< n)).getLsbD k = (decide (k < 16) && (decide (n ≤ k) && x.testBit (k - n))) := by
  rw [BitVec.getLsbD_ofNat, Nat.testBit_shiftLeft]

theorem rrCode_toNat (op : BitVec 4) (a b : RegId) : rrCode op.toNat a b = rrWord op a b := by
  apply BitVec.eq_of_getLsbD_eq
  intro k hk
  simp only [rrCode, BitVec.ofNat_or, BitVec.getLsbD_or, getLsbD_ofNat_shiftLeft, BitVec.testBit_toNat, rrWord_getLsbD]
  interval_cases k <;> simp [regId_testBit_of_three_le]

theorem riCode_toNat (op : BitVec 4) (a : RegId) (imm5 : BitVec 5) : riCode op.toNat a imm5 = riWord op a imm5 := by
  apply BitVec.eq_of_getLsbD_eq
  intro k hk
  simp only [riCode, BitVec.ofNat_or, BitVec.getLsbD_or, getLsbD_ofNat_shiftLeft, BitVec.testBit_toNat, riWord_getLsbD]
  interval_cases k <;> simp [regId_testBit_of_three_le]

theorem jumpCode_toNat (cc : BitVec 4) (disp9 : BitVec 9) : jumpCode cc.toNat disp9 = jumpWord cc disp9 := by
  have hlow : disp9.toNat % 256 = (disp9.setWidth 8).toNat := (BitVec.toNat_setWidth 8 disp9).symm
  have hhigh : disp9.toNat / 256 = (disp9 >>> 8).toNat := by simp [Nat.shiftRight_eq_div_pow]
  apply BitVec.eq_of_getLsbD_eq
  intro k hk
  simp only [jumpCode, hlow, hhigh, BitVec.ofNat_or, BitVec.getLsbD_or, getLsbD_ofNat_shiftLeft, BitVec.testBit_toNat,
    BitVec.ofNat_toNat, jumpWord_getLsbD]
  interval_cases k <;> simp

theorem decode_rrCode {op : BitVec 4} {a b : RegId} {i : Instr} (h : rrInstr op a b = some i) :
    decode (rrCode op.toNat a b) = .ok i :=
  (congrArg decode (rrCode_toNat op a b)).trans (decode_rrWord h)

theorem decode_riCode {op : BitVec 4} {a : RegId} {imm5 : BitVec 5} {i : Instr} (h : riInstr op a imm5 = some i) :
    decode (riCode op.toNat a imm5) = .ok i :=
  (congrArg decode (riCode_toNat op a imm5)).trans (decode_riWord h)

theorem decode_jumpCode (cc : BitVec 4) (disp9 : BitVec 9) :
    decode (jumpCode cc.toNat disp9) = .ok (jumpInstr cc disp9) :=
  (congrArg decode (jumpCode_toNat cc disp9)).trans (decode_jumpWord cc disp9)

/-- The immediate format's formula with the register field put in last, as R71 writes NEG and NOT. -/
theorem or_aField_eq_riCode (op : Nat) (a : RegId) (imm5 : BitVec 5) :
    BitVec.ofNat 16 (0x5000 ||| op <<< 8 ||| imm5.toNat) ||| BitVec.ofNat 16 (a.val <<< 5) = riCode op a imm5 := by
  rw [riCode, ← BitVec.ofNat_or, Nat.or_right_comm]

/-! ### Two instructions by their next states -/

theorem exec_rsubRI (a : RegId) (imm : Int) {res : Word} {f : Flags} {s : State}
    (h : subFlags (signedImm imm) (s.reg a) = (res, f)) : exec (.rsubRI a imm) s = .next (arithState a res f s) :=
  congrArg (fun r => Host.Outcome.next (storeResult a r s)) h

theorem exec_jnever (d : Int) (s : State) : exec (.jnever d) s = .next (advanceState s) := rfl

/-! ### The obligations -/

/-- Settles O4: the decoder answers by one of the nine rows, whose conditions exclude each other. -/
theorem reservedClassesPartitionTheWords : Obligations.ReservedClassesPartitionTheWords := by
  intro w
  have rr : w.extractLsb 15 12 = 0b0001#4 ↔ _ := bits15to12_eq_iff w 0b00#2 0b01#2
  have ri : w.extractLsb 15 12 = 0b0101#4 ↔ _ := bits15to12_eq_iff w 0b01#2 0b01#2
  have row := decodeRow_decode w
  simp only [bits15to14_eq_iff, bit13_eq, bit15_eq_false_iff, bits13to12_eq_iff, rr, ri, bits11to10_eq_iff,
    bits11to8_eq_iff, bits1to0_eq_iff, Ne]
  generalize decode w = answer at row
  cases row with
  | variableLength hf => simp [hf]
  | jumpSpace hf hj => simp [hf, hj]
  | jump hf hj => simp [hf, hj]
  | operationSize hf hs => rcases hf with hf | hf <;> simp [hf, hs]
  | noTwoRegisterForm hf hs hop => simp [hf, hs, hop]
  | addressingMode hf hs hop hm => simp [hf, hs, hop, hm]
  | twoRegister hf hs hop hm => simp [hf, hs, hop, hm]
  | opcode13 hf hs hop => simp [hf, hs, hop]
  | immediate hf hs hop => simp [hf, hs, hop]

/-- Settles O23: NEG and NOT are subtractions from 0 and from all ones, NOP a never-jump, HALT a jump to itself, MOVS MOV. -/
theorem negNotNopAndHaltAreTheirExpansions : Obligations.NegNotNopAndHaltAreTheirExpansions := fun s a =>
  ⟨(congrArg decode (or_aField_eq_riCode 2 a 0#5)).trans (decode_riCode (op := 2#4) rfl),
    exec_rsubRI a 0 (subFlags_zero_left (s.reg a)),
    (congrArg decode (or_aField_eq_riCode 2 a 31#5)).trans (decode_riCode (op := 2#4) rfl),
    exec_rsubRI a (-1) (subFlags_allOnes_left (s.reg a)),
    decode_of_neverJump rfl, exec_jnever 0 s,
    decode_jumpCode 14#4 0#9, congrArg _ (jumpIf_always_zero s),
    fun _ => ⟨decode_rrCode (op := 9#4) rfl, rfl⟩,
    fun _ => ⟨decode_riCode (op := 9#4) rfl, rfl⟩⟩

/-- Settles O42: R64's mask fixes the fields of a never-jump, and a never-jump only advances pc. -/
theorem everyNeverJumpWordIsANop : Obligations.EveryNeverJumpWordIsANop :=
  ⟨decode_of_neverJump rfl, fun _ s h => ⟨_, decode_of_neverJump h, exec_jnever _ s⟩⟩

/-- Settles O7: the fault of a step whose word is reserved. -/
theorem reservedWordsFault : Obligations.ReservedWordsFault :=
  fun _ w c hf hd => step_fault.2 (.inr (.inl ⟨w, c, hf, hd, rfl⟩))

/-- Settles O27: between registers the operand is 16 bits wide already, and below 16 the two extensions agree. -/
theorem wordsWithTheSameEffect : Obligations.WordsWithTheSameEffect := fun s =>
  ⟨fun _ _ => ⟨decode_rrCode (op := 8#4) rfl, decode_rrCode (op := 9#4) rfl, rfl⟩,
    fun disp9 => ⟨decode_jumpCode 15#4 disp9, exec_jnever _ s⟩,
    fun a _ h => ⟨decode_riCode (op := 8#4) rfl, decode_riCode (op := 9#4) rfl,
      congrArg (fun v => Host.Outcome.next (moveTo a v s)) (unsignedImm_eq_signedImm h)⟩⟩

end Sys2Proof.Claims
end

section
/-! PROOFS. The arithmetic and logic family (40_arith_logic.md): the flag functions are the exact flags (R80 to R82), the
result of each instruction (R84 to R91, R93), and where the jumps go after a comparison and after an addition (R132). -/

namespace Sys2Proof.Machine

/-! ### Addition (R80): the sum and the flags without the 17-bit sum -/

theorem addFlags_eq (l r : Word) :
    addFlags l r = (l + r, { z := decide (l + r = 0#16), n := (l + r)[15], c := decide (65536 ≤ l.toNat + r.toNat),
                             v := l[15] == r[15] && (l + r)[15] != l[15] }) := by
  have hres : BitVec.setWidth 16 (l.setWidth 17 + r.setWidth 17) = l + r := by
    rw [BitVec.setWidth_add _ _ (by decide)]
    simp
  have hcarry : (l.setWidth 17 + r.setWidth 17)[16] = decide (65536 ≤ l.toNat + r.toNat) := by
    have hl := l.isLt
    have hr := r.isLt
    have hsum : (l.setWidth 17 + r.setWidth 17).toNat = l.toNat + r.toNat := by
      rw [BitVec.toNat_add, BitVec.toNat_setWidth, BitVec.toNat_setWidth]
      omega
    exact (BitVec.msb_eq_decide _).trans (by rw [hsum])
  simp only [addFlags, hres, hcarry]
  rfl

/-! ### A register written with its own value -/

@[simp] theorem State.setReg_reg_self (s : State) (a : RegId) : s.setReg a (s.reg a) = s := by
  simp [State.setReg, State.reg_eq]

/-! ### What a comparison or a test does to the state (R83, R87, R91) -/

theorem exec_cmp_next {i : Instr} {a : RegId} {s t : State} (hi : (∃ b, i = .cmpRR a b) ∨ ∃ imm, i = .cmpRI a imm)
    (h : exec i s = .next t) : ∃ r, t = storeFlags r s := by
  obtain ⟨b, rfl⟩ | ⟨imm, rfl⟩ := hi
  all_goals exact ⟨_, (Host.Outcome.next.inj h).symm⟩

theorem exec_test_next {i : Instr} {a : RegId} {s t : State} (hi : (∃ b, i = .testRR a b) ∨ ∃ imm, i = .testRI a imm)
    (h : exec i s = .next t) : ∃ res, t = storeLogicFlags res s := by
  obtain ⟨b, rfl⟩ | ⟨imm, rfl⟩ := hi
  all_goals exact ⟨_, (Host.Outcome.next.inj h).symm⟩

/-! ### Jump conditions -/

/-- A condition that is the complement of another one holds when the other does not (R132's pairs). -/
theorem condHolds_iff_not {c c' : Cond} {f : Flags} {p : Prop} (h : condHolds c f = true ↔ p)
    (hc : condHolds c' f = !condHolds c f) : condHolds c' f = true ↔ ¬ p := by
  rw [hc, ← h, Bool.not_eq_true', Bool.not_eq_true]

theorem condHolds_greaterOrEqual (f : Flags) : condHolds .greaterOrEqual f = !condHolds .less f :=
  (Bool.not_not _).symm

theorem condHolds_greater (f : Flags) : condHolds .greater f = !condHolds .lessOrEqual f := by
  simp [condHolds, bne]

end Sys2Proof.Machine

namespace Sys2Proof.Claims

open Sys2Proof.Machine

/-! ### The flags are the exact ones -/

/-- Overflow of a sum by its sign bits is overflow of the signed sum (R80). -/
theorem addOverflow_eq (l r : Word) :
    (l[15] == r[15] && (l + r)[15] != l[15]) =
      decide (¬ (-32768 ≤ l.toInt + r.toInt ∧ l.toInt + r.toInt ≤ 32767)) := by
  refine (BitVec.saddOverflow_eq l r).symm.trans ?_
  rw [BitVec.saddOverflow, ← Bool.decide_or, decide_eq_decide]
  omega

/-- Overflow of a difference by its sign bits is overflow of the signed difference (R81, D23). -/
theorem subOverflow_eq (l r : Word) :
    (l[15] != r[15] && (l - r)[15] != l[15]) =
      decide (¬ (-32768 ≤ l.toInt - r.toInt ∧ l.toInt - r.toInt ≤ 32767)) := by
  have signs : ∀ x y d : Bool, (x != y && d != x) = (!x && y && d || x && !y && !d) := by decide
  refine (signs l.msb r.msb (l - r).msb).trans ((BitVec.ssubOverflow_eq l r).symm.trans ?_)
  rw [BitVec.ssubOverflow, ← Bool.decide_or, decide_eq_decide]
  omega

theorem bit15_eq_decide_neg (w : Word) : w[15] = decide (w.toInt < 0) := BitVec.msb_eq_toInt (x := w)

theorem addFlags_exact (l r : Word) : addFlags l r = (l + r, exactAddFlags l r) := by
  rw [addFlags_eq, addOverflow_eq, bit15_eq_decide_neg]
  rfl

theorem subFlags_exact (l r : Word) : subFlags l r = (l - r, exactSubFlags l r) := by
  have hz : l - r = 0#16 ↔ l = r := sub_eq_zero
  rw [subFlags_eq, subOverflow_eq, bit15_eq_decide_neg, decide_eq_decide.2 hz]
  rfl

theorem logicFlags_eq_bitwiseFlags (res : Word) (s : State) : logicFlags res s.draws = bitwiseFlags res s := by
  rw [logicFlags, bit15_eq_decide_neg]
  rfl

/-! ### The comparisons that the flags of a difference hold (R81's "Consequences") -/

theorem belowOrEqual_exactSubFlags (l r : Word) :
    condHolds .belowOrEqual (exactSubFlags l r) = decide (l.toNat ≤ r.toNat) := by
  simp only [condHolds, exactSubFlags, ← Bool.decide_or, ← BitVec.toNat_inj, Nat.le_iff_lt_or_eq]

theorem less_exactSubFlags (l r : Word) : condHolds .less (exactSubFlags l r) = decide (l.toInt < r.toInt) := by
  have hl := l.toInt_lt
  have hl' := l.le_toInt
  have hr := r.toInt_lt
  have hr' := r.le_toInt
  simp only [condHolds, exactSubFlags, BitVec.toInt_sub, Int.bmod_def]
  rw [Bool.eq_iff_iff]
  simp only [bne_iff_ne, ne_eq, decide_eq_decide, decide_eq_true_eq]
  omega

theorem lessOrEqual_exactSubFlags (l r : Word) :
    condHolds .lessOrEqual (exactSubFlags l r) = decide (l.toInt ≤ r.toInt) := by
  have h : condHolds .lessOrEqual (exactSubFlags l r) = (decide (l = r) || decide (l.toInt < r.toInt)) :=
    congrArg (decide (l = r) || ·) (less_exactSubFlags l r)
  rw [h, ← Bool.decide_or, decide_eq_decide, ← BitVec.toInt_inj]
  omega

/-- Settles O12: by `addFlags_eq`, and overflow by the sign bits is overflow of the signed sum. -/
theorem addFlagsAreExact : Obligations.AddFlagsAreExact := fun l r =>
  ⟨addFlags_exact l r, by rw [addFlags_eq], by rw [addFlags_eq]⟩

/-- Settles O13: by `subFlags_eq`, and the conditions of the flags of a difference are the comparisons. -/
theorem subFlagsAreExact : Obligations.SubFlagsAreExact := by
  intro l r
  refine ⟨subFlags_exact l r, by rw [subFlags_eq], by rw [subFlags_eq], ?_⟩
  rw [subFlags_exact]
  exact ⟨belowOrEqual_exactSubFlags l r, less_exactSubFlags l r, lessOrEqual_exactSubFlags l r⟩

/-! ### The four write-backs give the next states of the statements -/

theorem next_storeResult {a : RegId} {r : Word × Flags} {res : Word} {f : Flags} (s : State) (h : r = (res, f)) :
    (.next (storeResult a r s) : Host.Outcome State Fault Refusal) = .next (arithState a res f s) := by
  rw [h]
  rfl

theorem next_storeFlags {r : Word × Flags} {res : Word} {f : Flags} (s : State) (h : r = (res, f)) :
    (.next (storeFlags r s) : Host.Outcome State Fault Refusal) = .next (compareState f s) := by
  rw [h]
  rfl

theorem next_storeLogic (a : RegId) (res : Word) (s : State) :
    (.next (storeLogic a res s) : Host.Outcome State Fault Refusal) = .next (bitwiseState a res s) := by
  rw [storeLogic, logicFlags_eq_bitwiseFlags]
  rfl

theorem next_storeLogicFlags (res : Word) (s : State) :
    (.next (storeLogicFlags res s) : Host.Outcome State Fault Refusal) = .next (testState res s) := by
  rw [storeLogicFlags, logicFlags_eq_bitwiseFlags]
  rfl

/-! ### The results of the instructions (R84 to R91) -/

/-- Settles O14: the write-back of a sum and its exact flags. -/
theorem addResult : Obligations.AddResult := fun s _ _ _ =>
  ⟨decode_rrCode (op := 0#4) rfl, decode_riCode (op := 0#4) rfl,
    next_storeResult s (addFlags_exact _ _), next_storeResult s (addFlags_exact _ _)⟩

/-- Settles O15: the write-back of a difference and its exact flags. -/
theorem subResult : Obligations.SubResult := fun s _ _ _ =>
  ⟨decode_rrCode (op := 1#4) rfl, decode_riCode (op := 1#4) rfl,
    next_storeResult s (subFlags_exact _ _), next_storeResult s (subFlags_exact _ _)⟩

/-- Settles O16: the write-back of the difference with the operands exchanged. -/
theorem rsubResult : Obligations.RsubResult := fun s _ _ _ =>
  ⟨decode_rrCode (op := 2#4) rfl, decode_riCode (op := 2#4) rfl,
    next_storeResult s (subFlags_exact _ _), next_storeResult s (subFlags_exact _ _)⟩

/-- Settles O17: of the difference, only the flags are written back. -/
theorem cmpResult : Obligations.CmpResult := fun s _ _ _ =>
  ⟨decode_rrCode (op := 3#4) rfl, decode_riCode (op := 3#4) rfl,
    next_storeFlags s (subFlags_exact _ _), next_storeFlags s (subFlags_exact _ _)⟩

/-- Settles O18: the write-back of a bitwise result. -/
theorem orResult : Obligations.OrResult := fun s a _ _ =>
  ⟨decode_rrCode (op := 4#4) rfl, decode_riCode (op := 4#4) rfl, next_storeLogic a _ s, next_storeLogic a _ s⟩

/-- Settles O19: the write-back of a bitwise result. -/
theorem xorResult : Obligations.XorResult := fun s a _ _ =>
  ⟨decode_rrCode (op := 5#4) rfl, decode_riCode (op := 5#4) rfl, next_storeLogic a _ s, next_storeLogic a _ s⟩

/-- Settles O20: the write-back of a bitwise result. -/
theorem andResult : Obligations.AndResult := fun s a _ _ =>
  ⟨decode_rrCode (op := 6#4) rfl, decode_riCode (op := 6#4) rfl, next_storeLogic a _ s, next_storeLogic a _ s⟩

/-- Settles O21: of the bitwise result, only the flags are written back. -/
theorem testResult : Obligations.TestResult := fun s _ _ _ =>
  ⟨decode_rrCode (op := 7#4) rfl, decode_riCode (op := 7#4) rfl, next_storeLogicFlags _ s, next_storeLogicFlags _ s⟩

/-! ### One register as both operands (R93) -/

theorem arithState_reg_self (a : RegId) (res : Word) (f : Flags) (s : State) : (arithState a res f s).reg a = res :=
  State.reg_setReg_self s a res

theorem bitwiseState_reg_self (a : RegId) (res : Word) (s : State) : (bitwiseState a res s).reg a = res :=
  State.reg_setReg_self s a res

/-- A bitwise result that is the register's old value changes no register. -/
theorem bitwiseState_reg_regs (a : RegId) (s : State) : (bitwiseState a (s.reg a) s).regs = s.regs :=
  (congrArg State.regs (State.setReg_reg_self s a) :)

theorem exactSubFlags_self (w : Word) : exactSubFlags w w = { z := true, n := false, c := false, v := false } := by
  simp [exactSubFlags]

/-- Settles O22: the results of O14 to O21 for `b = a`. -/
theorem sameRegisterAsBothOperands : Obligations.SameRegisterAsBothOperands := by
  intro s a
  obtain ⟨-, -, hadd, -⟩ := addResult s a a 0
  obtain ⟨-, -, hsub, -⟩ := subResult s a a 0
  obtain ⟨-, -, hrsub, -⟩ := rsubResult s a a 0
  obtain ⟨-, -, hcmp, -⟩ := cmpResult s a a 0
  obtain ⟨-, -, hor, -⟩ := orResult s a a 0
  obtain ⟨-, -, hand, -⟩ := andResult s a a 0
  obtain ⟨-, -, hxor, -⟩ := xorResult s a a 0
  obtain ⟨-, -, htest, -⟩ := testResult s a a 0
  rw [BitVec.sub_self, exactSubFlags_self] at hsub hrsub
  rw [exactSubFlags_self] at hcmp
  rw [BitVec.or_self] at hor
  rw [BitVec.and_self] at hand htest
  rw [BitVec.xor_self] at hxor
  refine ⟨⟨_, hadd, ?_⟩, ⟨_, hsub, arithState_reg_self _ _ _ _, rfl⟩, ⟨_, hrsub, arithState_reg_self _ _ _ _, rfl⟩,
    ⟨_, hcmp, rfl, rfl⟩, ⟨_, hor, bitwiseState_reg_regs a s⟩, ⟨_, hand, bitwiseState_reg_regs a s⟩,
    ⟨_, hxor, bitwiseState_reg_self _ _ _, rfl, rfl⟩, ⟨_, htest, rfl, rfl, rfl⟩⟩
  rw [arithState_reg_self, BitVec.toNat_add, Nat.two_mul]

/-! ### Jumps after a comparison and after an addition -/

/-- A jump whose condition says `taken` of the flags goes by `taken`. -/
theorem next_jumpIf {cc : Cond} {taken : Prop} [Decidable taken] {t : State} (disp9 : BitVec 9)
    (h : condHolds cc t.flags = true ↔ taken) :
    (.next (jumpIf cc disp9.toInt t) : Host.Outcome State Fault Refusal) = .next (jumpState taken disp9 t) := by
  rw [jumpIf_eq]
  simp only [h]
  rfl

theorem flags_of_compares {i : Instr} {l r : Word} {s t : State} (hi : Compares i l r s) (h : exec i s = .next t) :
    t.flags = exactSubFlags l r := by
  obtain ⟨a, rfl, ⟨b, rfl, rfl | rfl⟩ | ⟨imm5, rfl, rfl | rfl⟩⟩ := hi
  all_goals
    cases h
    exact congrArg Prod.snd (subFlags_exact _ _)

theorem flags_of_adds {i : Instr} {l r : Word} {s t : State} (hi : Adds i l r s) (h : exec i s = .next t) :
    t.flags = exactAddFlags l r := by
  obtain ⟨a, rfl, ⟨b, rfl, rfl⟩ | ⟨imm5, rfl, rfl⟩⟩ := hi
  all_goals
    cases h
    exact congrArg Prod.snd (addFlags_exact _ _)

/-- Settles O40: five conditions are the comparisons of `subFlagsAreExact`, the other five their complements. -/
theorem comparisonJumpsCompare : Obligations.ComparisonJumpsCompare := by
  intro i l r s t disp9 hi h
  have hf := flags_of_compares hi h
  have hz : condHolds .zero t.flags = true ↔ l = r := by rw [hf]; exact decide_eq_true_iff
  have hc : condHolds .carry t.flags = true ↔ l.toNat < r.toNat := by rw [hf]; exact decide_eq_true_iff
  have hbe : condHolds .belowOrEqual t.flags = true ↔ l.toNat ≤ r.toNat := by
    rw [hf, belowOrEqual_exactSubFlags, decide_eq_true_iff]
  have hl : condHolds .less t.flags = true ↔ l.toInt < r.toInt := by
    rw [hf, less_exactSubFlags, decide_eq_true_iff]
  have hle : condHolds .lessOrEqual t.flags = true ↔ l.toInt ≤ r.toInt := by
    rw [hf, lessOrEqual_exactSubFlags, decide_eq_true_iff]
  exact ⟨next_jumpIf disp9 hz, next_jumpIf disp9 (condHolds_iff_not hz rfl),
    next_jumpIf disp9 hc, next_jumpIf disp9 ((condHolds_iff_not hc rfl).trans Nat.not_lt),
    next_jumpIf disp9 hbe, next_jumpIf disp9 ((condHolds_iff_not hbe rfl).trans Nat.not_le),
    next_jumpIf disp9 hl, next_jumpIf disp9 ((condHolds_iff_not hl (condHolds_greaterOrEqual _)).trans Int.not_lt),
    next_jumpIf disp9 hle, next_jumpIf disp9 ((condHolds_iff_not hle (condHolds_greater _)).trans Int.not_le)⟩

theorem add_eq_zero_iff_toNat (l r : Word) : l + r = 0#16 ↔ (l.toNat + r.toNat) % 65536 = 0 := by
  rw [← BitVec.toNat_inj, BitVec.toNat_add]
  rfl

/-- A sum is negative when bit 15 of the 16-bit result is set. -/
theorem toInt_add_neg_iff (l r : Word) : (l + r).toInt < 0 ↔ 32768 ≤ (l.toNat + r.toNat) % 65536 := by
  rw [BitVec.toInt_eq_toNat_cond, BitVec.toNat_add]
  omega

/-- Settles O59: JC, JV, JZ and JN read the four exact flags of the sum, the other four jumps their complements. -/
theorem jumpsAfterAnAddition : Obligations.JumpsAfterAnAddition := by
  intro i l r s t disp9 hi h
  have hf := flags_of_adds hi h
  have hc : condHolds .carry t.flags = true ↔ 65536 ≤ l.toNat + r.toNat := by rw [hf]; exact decide_eq_true_iff
  have hv : condHolds .overflow t.flags = true ↔ ¬ (-32768 ≤ l.toInt + r.toInt ∧ l.toInt + r.toInt ≤ 32767) := by
    rw [hf]; exact decide_eq_true_iff
  have hz : condHolds .zero t.flags = true ↔ (l.toNat + r.toNat) % 65536 = 0 := by
    rw [hf]; exact decide_eq_true_iff.trans (add_eq_zero_iff_toNat l r)
  have hn : condHolds .negative t.flags = true ↔ 32768 ≤ (l.toNat + r.toNat) % 65536 := by
    rw [hf]; exact decide_eq_true_iff.trans (toInt_add_neg_iff l r)
  exact ⟨next_jumpIf disp9 hc, next_jumpIf disp9 ((condHolds_iff_not hc rfl).trans Nat.not_le),
    next_jumpIf disp9 (hv.trans (by omega)), next_jumpIf disp9 ((condHolds_iff_not hv rfl).trans not_not),
    next_jumpIf disp9 hz, next_jumpIf disp9 (condHolds_iff_not hz rfl),
    next_jumpIf disp9 hn, next_jumpIf disp9 ((condHolds_iff_not hn rfl).trans Nat.not_le)⟩

/-! ### The frame of CMP and TEST (R83) -/

/-- Settles O46: a comparison or a test writes back flags alone, and only a test draws. -/
theorem compareAndTestFrame : Obligations.CompareAndTestFrame := by
  intro i a s t hi h
  have hkeep : t.regs = s.regs ∧ t.mem = s.mem ∧ t.ioLog = s.ioLog := by
    obtain ⟨b, rfl | rfl⟩ | ⟨imm, rfl | rfl⟩ := hi
    all_goals
      cases h
      exact ⟨rfl, rfl, rfl⟩
  obtain ⟨hregs, hmem, hlog⟩ := hkeep
  refine ⟨fun r => congrArg (Vector.get · r) hregs, keepsSpecials_of_exec h, keepsMemory_of_mem_eq hmem, hlog, ?_, ?_⟩
  · intro hcmp
    obtain ⟨r, rfl⟩ := exec_cmp_next hcmp h
    rfl
  · intro htest
    obtain ⟨res, rfl⟩ := exec_test_next htest h
    rfl

end Sys2Proof.Claims
end

section
/-! PROOFS. The move and constant family (41_move_slo.md): the results of MOVZ, MOV and SLO (R100 to R102), and the words
of opcodes 12 to 15 that are no two-register instruction (R57). -/

namespace Sys2Proof

theorem decode_rrWord_of_none {op : BitVec 4} {a b : RegId} (h : rrInstr op a b = none) :
    decode (rrWord op a b) = .error .noTwoRegisterForm := by
  obtain ⟨hf, hs, ho, ha, hb, -⟩ := rrWord_fields op a b
  simp [decode, hf, hs, ho, ha, hb, h]

end Sys2Proof

namespace Sys2Proof.Machine

/-- The shift vacates the five bits that the immediate fills, so the two meet without overlap (R102). -/
theorem shiftLeft_or_unsignedImm (w : Word) (imm5 : BitVec 5) :
    w <<< 5 ||| unsignedImm imm5.toNat = (w.extractLsb' 0 11 ++ imm5 : BitVec (11 + 5)) := by
  have hshift : w <<< 5 = (w.extractLsb' 0 11 ++ 0#5 : BitVec (11 + 5)) := BitVec.shiftLeft_eq_concat_of_lt (by decide)
  have himm : unsignedImm imm5.toNat = (0#11 ++ imm5 : BitVec (11 + 5)) := by
    rw [unsignedImm_toNat, BitVec.setWidth_eq_append (by decide)]
    rfl
  rw [hshift, himm, BitVec.or_append, BitVec.or_zero, BitVec.zero_or]

end Sys2Proof.Machine

namespace Sys2Proof.Claims

open Sys2Proof.Machine

theorem decode_rrCode_of_none {op : BitVec 4} {a b : RegId} (h : rrInstr op a b = none) :
    decode (rrCode op.toNat a b) = .error .noTwoRegisterForm :=
  (congrArg decode (rrCode_toNat op a b)).trans (decode_rrWord_of_none h)

theorem next_moveTo (a : RegId) {v w : Word} (s : State) (h : v = w) :
    (.next (moveTo a v s) : Host.Outcome State Fault Refusal) = .next (moveState a w s) := by
  rw [h]
  rfl

/-- Settles O26: the shifted register and the immediate are joined by `shiftLeft_or_unsignedImm`; opcode 12 has no
two-register form. -/
theorem sloResult : Obligations.SloResult := fun s a _ imm5 =>
  ⟨decode_riCode (op := 12#4) rfl, decode_rrCode_of_none (op := 12#4) rfl,
    next_moveTo a s (shiftLeft_or_unsignedImm (s.reg a) imm5)⟩

/-- Settles O24: the register as it is, or the immediate zero extended. -/
theorem movzResult : Obligations.MovzResult := fun s a _ imm5 =>
  ⟨decode_rrCode (op := 8#4) rfl, decode_riCode (op := 8#4) rfl,
    next_moveTo a s rfl, next_moveTo a s (unsignedImm_toNat imm5)⟩

/-- Settles O25: the register as it is, or the immediate sign extended. -/
theorem movResult : Obligations.MovResult := fun s a _ imm5 =>
  ⟨decode_rrCode (op := 9#4) rfl, decode_riCode (op := 9#4) rfl,
    next_moveTo a s rfl, next_moveTo a s (signedImm_toInt imm5)⟩

end Sys2Proof.Claims
end

section
/-! PROOFS. The load and store family (42_load_store.md): what LOAD and STORE answer, region by region (R110 to R112), and
their frames (R113). The two addressing modes differ in the address alone, so each part is said once of an address. -/

namespace Sys2Proof.Machine

/-! ### The faults of a data access, in R163's order of checks -/

theorem memRead_of_odd {addr : Word} {s : State} (h0 : addr[0] = true) :
    memRead addr s = .error (.unalignedAccess addr s.pc) := by
  simp [memRead, h0]

theorem memRead_of_rom {addr : Word} {s : State} (h0 : addr[0] = false) (hm : memMap s.platform addr = .rom) :
    memRead addr s = .error (.programMemoryAccess addr s.pc) := by
  simp [memRead, h0, hm]

theorem memRead_of_none {addr : Word} {s : State} (h0 : addr[0] = false) (hm : memMap s.platform addr = .none) :
    memRead addr s = .error (.unmappedAccess addr s.pc) := by
  simp [memRead, h0, hm]

theorem memWrite_of_odd {addr v : Word} {s : State} (h0 : addr[0] = true) :
    memWrite addr v s = .error (.unalignedAccess addr s.pc) := by
  simp [memWrite, h0]

theorem memWrite_of_rom {addr v : Word} {s : State} (h0 : addr[0] = false) (hm : memMap s.platform addr = .rom) :
    memWrite addr v s = .error (.programMemoryAccess addr s.pc) := by
  simp [memWrite, h0, hm]

theorem memWrite_of_none {addr v : Word} {s : State} (h0 : addr[0] = false) (hm : memMap s.platform addr = .none) :
    memWrite addr v s = .error (.unmappedAccess addr s.pc) := by
  simp [memWrite, h0, hm]

/-- A datum written at an even address changes no byte but its own two (R37). -/
theorem Memory.read_writeWord_of_ne (o : ByteOrder) (m : List Host.Cell) {addr : Word} (v : Word) {x : Nat}
    (h0 : addr[0] = false) (hx : x ≠ addr.toNat) (hx1 : x ≠ addr.toNat + 1) :
    Memory.read (Memory.writeWord o m addr v) x = Memory.read m x := by
  rw [Memory.read_writeWord, even_add_one_toNat h0, if_neg hx1, if_neg hx]

/-! ### What a completed LOAD or STORE leaves unchanged -/

theorem loadFrom_reg_of_ne {a r : RegId} {addr : Word} {s t : State} (h : loadFrom a addr s = .next t) (hr : r ≠ a) :
    t.reg r = s.reg r := by
  obtain ⟨-, ⟨-, rfl⟩ | ⟨-, rfl⟩⟩ := loadFrom_next h
  · exact moveTo_reg_of_ne _ s hr
  · exact moveTo_reg_of_ne _ (ioRead addr s).2 hr

theorem loadFrom_flags {a : RegId} {addr : Word} {s t : State} (h : loadFrom a addr s = .next t) :
    t.flags = s.flags := by
  obtain ⟨-, ⟨-, rfl⟩ | ⟨-, rfl⟩⟩ := loadFrom_next h <;> rfl

/-- A completed LOAD makes no draw and no event outside I/O, and one of each in I/O (R39). -/
theorem loadFrom_draws_ioLog {a : RegId} {addr : Word} {s t : State} (h : loadFrom a addr s = .next t) :
    (memMap s.platform addr ≠ .io → t.ioLog = s.ioLog ∧ t.draws = s.draws) ∧
      (memMap s.platform addr = .io → t.draws = s.draws + 1 ∧ ∃ v, t.ioLog = s.ioLog ++ [IoEvent.read addr v]) := by
  obtain ⟨-, ⟨hm, rfl⟩ | ⟨hm, rfl⟩⟩ := loadFrom_next h
  · exact ⟨fun _ => ⟨rfl, rfl⟩, fun hio => Region.noConfusion (hm.symm.trans hio)⟩
  · exact ⟨fun hne => absurd hm hne, fun _ => ⟨rfl, _, rfl⟩⟩

theorem storeTo_flags {a : RegId} {addr : Word} {s t : State} (h : storeTo a addr s = .next t) :
    t.flags = s.flags := by
  obtain ⟨-, ⟨-, rfl⟩ | ⟨-, rfl⟩⟩ := storeTo_next h <;> rfl

theorem storeTo_draws {a : RegId} {addr : Word} {s t : State} (h : storeTo a addr s = .next t) :
    t.draws = s.draws := by
  obtain ⟨-, ⟨-, rfl⟩ | ⟨-, rfl⟩⟩ := storeTo_next h <;> rfl

theorem storeTo_read_of_ne {a : RegId} {addr : Word} {s t : State} (h : storeTo a addr s = .next t) {x : Nat}
    (hx : x ≠ addr.toNat) (hx1 : x ≠ addr.toNat + 1) : Memory.read t.mem x = Memory.read s.mem x := by
  obtain ⟨h0, ⟨-, rfl⟩ | ⟨-, rfl⟩⟩ := storeTo_next h
  · exact Memory.read_writeWord_of_ne _ _ _ h0 hx hx1
  · rfl

theorem storeTo_ioLog_of_ram {a : RegId} {addr : Word} {s t : State} (h : storeTo a addr s = .next t)
    (hm : memMap s.platform addr = .ram) : t.ioLog = s.ioLog := by
  obtain ⟨-, rfl⟩ := storeTo_next_of_ram hm h
  rfl

theorem storeTo_mem_of_io {a : RegId} {addr : Word} {s t : State} (h : storeTo a addr s = .next t)
    (hm : memMap s.platform addr = .io) : t.mem = s.mem := by
  obtain ⟨-, ⟨hram, -⟩ | ⟨-, rfl⟩⟩ := storeTo_next h
  · exact Region.noConfusion (hram.symm.trans hm)
  · rfl

/-! ### The two addressing modes (R110) -/

/-- A LOAD into `x[a]` in either mode is `loadFrom` of its data address. -/
theorem exec_load {i : Instr} {a : RegId} (hi : (∃ b, i = .loadRR a b) ∨ ∃ n, i = .loadRI a n) (s : State) :
    ∃ addr, dataAddr i s = some addr ∧ exec i s = loadFrom a addr s := by
  obtain ⟨b, rfl⟩ | ⟨n, rfl⟩ := hi
  · exact ⟨_, rfl, rfl⟩
  · exact ⟨_, rfl, rfl⟩

/-- A STORE of `x[a]` in either mode is `storeTo` of its data address. -/
theorem exec_store {i : Instr} {a : RegId} (hi : (∃ b, i = .storeRR a b) ∨ ∃ n, i = .storeRI a n) (s : State) :
    ∃ addr, dataAddr i s = some addr ∧ exec i s = storeTo a addr s := by
  obtain ⟨b, rfl⟩ | ⟨n, rfl⟩ := hi
  · exact ⟨_, rfl, rfl⟩
  · exact ⟨_, rfl, rfl⟩

end Sys2Proof.Machine

namespace Sys2Proof.Claims

open Sys2Proof.Machine

/-! ### The outcomes (R111, R112) -/

theorem loadOutcome_loadFrom (a : RegId) (addr : Word) (s : State) : LoadOutcome a addr s (loadFrom a addr s) :=
  ⟨fun h0 => finish_fault.2 (memRead_of_odd h0),
    fun h0 hm => finish_fault.2 (memRead_of_rom h0 hm),
    fun h0 hm => finish_fault.2 (memRead_of_none h0 hm),
    fun h0 hm => loadFrom_of_ram h0 hm,
    fun h0 hm => finish_next.2 ⟨_, memRead_of_io h0 hm, rfl⟩⟩

theorem storeOutcome_storeTo (a : RegId) (addr : Word) (s : State) :
    StoreOutcome addr (s.reg a) s (storeTo a addr s) :=
  ⟨fun h0 => finish_fault.2 (memWrite_of_odd h0),
    fun h0 hm => finish_fault.2 (memWrite_of_rom h0 hm),
    fun h0 hm => finish_fault.2 (memWrite_of_none h0 hm),
    fun h0 hm => ⟨_, finish_next.2 ⟨_, memWrite_of_ram h0 hm, rfl⟩, rfl, Memory.readWord_writeWord _ _ _ h0,
      fun _ hx hx1 => Memory.read_writeWord_of_ne _ _ _ h0 hx hx1⟩,
    fun h0 hm => finish_next.2 ⟨_, memWrite_of_io h0 hm, rfl⟩⟩

/-- Settles O28: both modes are `loadFrom`, the absolute one of the zero-extended immediate. -/
theorem loadOutcomes : Obligations.LoadOutcomes := fun s a _ imm5 =>
  ⟨decode_rrCode (op := 10#4) rfl, decode_riCode (op := 10#4) rfl,
    loadOutcome_loadFrom a _ s, unsignedImm_toNat imm5 ▸ loadOutcome_loadFrom a (unsignedImm imm5.toNat) s⟩

/-- Settles O29: both modes are `storeTo`, the absolute one of the zero-extended immediate. -/
theorem storeOutcomes : Obligations.StoreOutcomes := fun s a _ imm5 =>
  ⟨decode_rrCode (op := 11#4) rfl, decode_riCode (op := 11#4) rfl,
    storeOutcome_storeTo a _ s, unsignedImm_toNat imm5 ▸ storeOutcome_storeTo a (unsignedImm imm5.toNat) s⟩

/-! ### The frames (R113) -/

/-- Settles O48: the frame of `loadFrom` at the data address. -/
theorem loadFrame : Obligations.LoadFrame := by
  intro i a s t hi h
  obtain ⟨addr, hd, hexec⟩ := exec_load hi s
  have hload : loadFrom a addr s = .next t := hexec ▸ h
  refine ⟨fun _ hr => loadFrom_reg_of_ne hload hr, loadFrom_flags hload, keepsSpecials_of_exec h,
    keepsMemory_of_mem_eq (loadFrom_mem hload), fun addr' hd' => ?_⟩
  obtain rfl : addr = addr' := Option.some.inj (hd.symm.trans hd')
  exact loadFrom_draws_ioLog hload

/-- Settles O49: the frame of `storeTo` at the data address. -/
theorem storeFrame : Obligations.StoreFrame := by
  intro i a s t hi h
  obtain ⟨addr, hd, hexec⟩ := exec_store hi s
  have hstore : storeTo a addr s = .next t := hexec ▸ h
  refine ⟨storeTo_reg hstore, storeTo_flags hstore, keepsSpecials_of_exec h, storeTo_draws hstore,
    fun addr' hd' => ?_⟩
  obtain rfl : addr = addr' := Option.some.inj (hd.symm.trans hd')
  exact ⟨fun _ hx hx1 => storeTo_read_of_ne hstore hx hx1, fun hm => keepsMemory_of_mem_eq (storeTo_mem_of_io hstore hm),
    storeTo_ioLog_of_ram hstore⟩

end Sys2Proof.Claims
end

section
/-! PROOFS. The control register family (43_control_registers.md): what READCR and WRITECR answer for the defined and for the
reserved numbers (R120, R121), and the frame of the instructions that change pc only. -/

namespace Sys2Proof.Machine

/-! ### The two accesses, by the number -/

theorem readCR_of_reserved {n : Nat} {s : State} (hn : 2 < n) :
    readCR n s = .error (.reservedControlRegister n s.pc) := by
  cases hr : readCR n s with
  | ok v =>
    obtain ⟨rfl, -⟩ | ⟨rfl, -⟩ | ⟨rfl, -⟩ := readCR_ok hr
    all_goals omega
  | error f => rw [(readCR_error hr).2]

/-- On this hardware each of the three defined registers reads as zero (R16, D12). -/
theorem Inv.readCR_eq_zero {n : Nat} {s : State} (hs : Inv s) (hn : n ≤ 2) : readCR n s = .ok 0x0000#16 := by
  cases hr : readCR n s with
  | ok v =>
    obtain ⟨-, rfl⟩ | ⟨-, rfl⟩ | ⟨-, rfl⟩ := readCR_ok hr
    · rw [hs.cpuid1]
    · rw [hs.cpuid2]
    · rw [hs.feat]
  | error f => exact absurd (readCR_error hr).1 (Nat.not_lt.2 hn)

theorem writeCR_of_defined {n : Nat} (v : Word) (s : State) (hn : n ≤ 2) : writeCR n v s = .ok s := if_pos hn

theorem writeCR_of_reserved {n : Nat} (v : Word) (s : State) (hn : 2 < n) :
    writeCR n v s = .error (.reservedControlRegister n s.pc) := if_neg (Nat.not_le.2 hn)

/-! ### Completed instructions -/

/-- A completed READCR moves the value that was read. -/
theorem exec_readcr_of_ok {n : Nat} {v : Word} {s : State} (a : RegId) (hr : readCR n s = .ok v) :
    exec (.readcr a n) s = .next (moveTo a v s) :=
  finish_next.2 ⟨v, hr, rfl⟩

/-- A completed WRITECR advances pc and does nothing else. -/
theorem exec_writecr_next {a : RegId} {n : Nat} {s t : State} (h : exec (.writecr a n) s = .next t) : t = s.advance := by
  obtain ⟨u, hw, rfl⟩ := finish_next.1 h
  rw [(writeCR_ok hw).2]

/-- A completed jump sets pc and does nothing else. -/
theorem exec_jump_next {i : Instr} {s t : State} (hi : isJump i = true) (h : exec i s = .next t) : ∃ p, t = s.setPc p := by
  obtain ⟨cc, d, hexec⟩ := exec_of_isJump hi
  have ht : jumpIf cc d s = t := Host.Outcome.next.inj ((hexec s).symm.trans h)
  exact ⟨_, ht.symm.trans (jumpIf_eq cc d s)⟩

end Sys2Proof.Machine

namespace Sys2Proof.Claims

open Sys2Proof.Machine

/-- Settles O34: a defined number moves its register, which the invariant makes zero; a reserved number's read faults. -/
theorem readcrResult : Obligations.ReadcrResult := fun _ a _ =>
  ⟨decode_riCode (op := 14#4) rfl,
    exec_readcr_of_ok a rfl, exec_readcr_of_ok a rfl, exec_readcr_of_ok a rfl,
    fun hs hn => exec_readcr_of_ok a (hs.readCR_eq_zero hn),
    fun hn => finish_fault.2 (readCR_of_reserved hn)⟩

/-- Settles O35: the write to a defined number keeps the state, and the write to a reserved one faults. -/
theorem writecrResult : Obligations.WritecrResult := fun s _ _ =>
  ⟨decode_riCode (op := 15#4) rfl,
    fun hn => finish_next.2 ⟨s, writeCR_of_defined _ s hn, rfl⟩,
    fun hn => finish_fault.2 (writeCR_of_reserved _ s hn)⟩

/-- Settles O50: WRITECR advances pc, and a jump sets it. -/
theorem writecrAndJumpFrame : Obligations.WritecrAndJumpFrame := by
  intro i s t hi h
  obtain ⟨a, n, rfl⟩ | hj := hi
  · rw [exec_writecr_next h]
    rfl
  · obtain ⟨p, rfl⟩ := exec_jump_next hj h
    rfl

end Sys2Proof.Claims
end

section
/-! PROOFS. The jump family (44_jumps.md): the jumps of R133 to R148 by the rows of R132's table, the pairs of conditions
(R132), and bad targets (R151). -/

namespace Sys2Proof.Machine

/-- An odd displacement from an even pc leads to an odd address. -/
theorem add_signExtend_odd {pc : Word} {disp9 : BitVec 9} (hd : disp9[0] = true) (hpc : pc[0] = false) :
    (pc + disp9.signExtend 16)[0] = true := by
  simp [BitVec.getElem_add, BitVec.getElem_signExtend, hd, hpc]

end Sys2Proof.Machine

namespace Sys2Proof.Claims

open Sys2Proof.Machine

/-! ### A jump by its row of R132's table -/

/-- The instruction of a condition code jumps by any proposition that says what the code's row says. -/
theorem exec_jumpInstr_of_tableCond (cc : BitVec 4) (disp9 : BitVec 9) {s : State} {taken : Prop} [Decidable taken]
    (h : tableCond cc s.flags ↔ taken) : exec (jumpInstr cc disp9) s = .next (jumpState taken disp9 s) := by
  obtain ⟨c, hexec, hcond⟩ := exec_jumpInstr cc disp9
  exact (hexec s).trans (next_jumpIf disp9 ((hcond s.flags).trans h))

/-- Flipping the low bit of the code negates the row's condition (R132). -/
theorem tableCond_xor_one (cc : BitVec 4) (f : Flags) : tableCond (cc ^^^ 1#4) f ↔ ¬ tableCond cc f := by
  have hcc := cc.isLt
  simp only [tableCond, BitVec.toNat_xor]
  interval_cases cc.toNat
  all_goals simp [-not_and, not_and_or]

/-! ### The obligations -/

/-- Settles O37: the first eight rows of R132's table. -/
theorem jumpsOnOneFlag : Obligations.JumpsOnOneFlag := fun _ disp9 =>
  ⟨decode_jumpCode 0#4 disp9, exec_jumpInstr_of_tableCond 0#4 disp9 Iff.rfl,
    decode_jumpCode 1#4 disp9, exec_jumpInstr_of_tableCond 1#4 disp9 Iff.rfl,
    decode_jumpCode 2#4 disp9, exec_jumpInstr_of_tableCond 2#4 disp9 Iff.rfl,
    decode_jumpCode 3#4 disp9, exec_jumpInstr_of_tableCond 3#4 disp9 Iff.rfl,
    decode_jumpCode 4#4 disp9, exec_jumpInstr_of_tableCond 4#4 disp9 Iff.rfl,
    decode_jumpCode 5#4 disp9, exec_jumpInstr_of_tableCond 5#4 disp9 Iff.rfl,
    decode_jumpCode 6#4 disp9, exec_jumpInstr_of_tableCond 6#4 disp9 Iff.rfl,
    decode_jumpCode 7#4 disp9, exec_jumpInstr_of_tableCond 7#4 disp9 Iff.rfl⟩

/-- Settles O38: the last eight rows of R132's table. -/
theorem jumpsOnCombinedFlags : Obligations.JumpsOnCombinedFlags := fun _ disp9 =>
  ⟨decode_jumpCode 8#4 disp9, exec_jumpInstr_of_tableCond 8#4 disp9 Iff.rfl,
    decode_jumpCode 9#4 disp9, exec_jumpInstr_of_tableCond 9#4 disp9 Iff.rfl,
    decode_jumpCode 10#4 disp9, exec_jumpInstr_of_tableCond 10#4 disp9 Iff.rfl,
    decode_jumpCode 11#4 disp9, exec_jumpInstr_of_tableCond 11#4 disp9 Iff.rfl,
    decode_jumpCode 12#4 disp9, exec_jumpInstr_of_tableCond 12#4 disp9 Iff.rfl,
    decode_jumpCode 13#4 disp9, exec_jumpInstr_of_tableCond 13#4 disp9 Iff.rfl,
    decode_jumpCode 14#4 disp9, exec_jumpInstr_of_tableCond 14#4 disp9 Iff.rfl,
    decode_jumpCode 15#4 disp9, exec_jumpInstr_of_tableCond 15#4 disp9 Iff.rfl⟩

/-- Settles O39: the row of the flipped code holds exactly when the code's own row does not. -/
theorem jumpConditionsComeInPairs : Obligations.JumpConditionsComeInPairs := by
  intro cc disp9 s
  obtain ⟨c, -, hcond⟩ := exec_jumpInstr cc disp9
  have hflip : tableCond (cc ^^^ 1#4) s.flags ↔ condHolds c s.flags = false := by
    rw [tableCond_xor_one, ← hcond, Bool.not_eq_true]
  exact ⟨condHolds c s.flags, exec_jumpInstr_of_tableCond _ disp9 (hcond s.flags).symm,
    exec_jumpInstr_of_tableCond _ disp9 hflip⟩

/-- Settles O41: a jump sets pc by its row of R132's table; of an odd pc and of one outside ROM the fetch says the fault. -/
theorem badJumpTargetsFaultAtTheNextFetch : Obligations.BadJumpTargetsFaultAtTheNextFetch := by
  intro disp9 s
  refine ⟨fun cc => ?_, fun hd hpc => ?_⟩
  · obtain ⟨c, -, hcond⟩ := exec_jumpInstr cc disp9
    have htaken (h : tableCond cc s.flags) :
        (jumpState (condHolds c s.flags = true) disp9 s).pc = s.pc + disp9.signExtend 16 :=
      if_pos ((hcond s.flags).2 h)
    exact ⟨jumpState (condHolds c s.flags = true) disp9 s, exec_jumpInstr_of_tableCond _ disp9 (hcond s.flags).symm, rfl,
      htaken, fun h => if_neg (mt (hcond s.flags).1 h),
      fun h hd hpc => by rw [htaken h, add_signExtend_odd hd hpc],
      fun hodd => step_fault.2 (.inl (fetch_of_odd hodd)),
      fun heven hrom => step_fault.2 (.inl (fetch_of_not_rom heven (.inl hrom)))⟩
  · have hodd := add_signExtend_odd hd hpc
    exact ⟨jumpState True disp9 s, exec_jumpInstr_of_tableCond 14#4 disp9 Iff.rfl, hodd,
      step_fault.2 (.inl (fetch_of_odd hodd))⟩

end Sys2Proof.Claims
end

section
/-! PROOFS. The exceptions family (60_exceptions.md): the step that runs an instruction, which instructions can fault
(R163), and the causes of the seven faults (R161) in R163's order of checks. -/

namespace Sys2Proof.Machine

/-- The step runs the instruction that was fetched and decoded, with nothing around it. -/
theorem Executes.step_eq {s : State} {i : Instr} (h : Executes s i) : step s = exec i s := by
  obtain ⟨w, hf, hd⟩ := h
  simp only [step, hf, hd]

/-! ### The faults of an instruction -/

/-- `f` is the fault of a data access at `addr`, in R163's order: alignment, then region. -/
def AccessFault (addr : Word) (s : State) (f : Fault) : Prop :=
  (addr[0] = true ∧ f = .unalignedAccess addr s.pc) ∨
    (addr[0] = false ∧ memMap s.platform addr = .rom ∧ f = .programMemoryAccess addr s.pc) ∨
    (addr[0] = false ∧ memMap s.platform addr = .none ∧ f = .unmappedAccess addr s.pc)

theorem memRead_error_iff {addr : Word} {s : State} {f : Fault} :
    memRead addr s = .error f ↔ AccessFault addr s f := by
  refine ⟨memRead_error, ?_⟩
  rintro (⟨h0, rfl⟩ | ⟨h0, hm, rfl⟩ | ⟨h0, hm, rfl⟩)
  · exact memRead_of_odd h0
  · exact memRead_of_rom h0 hm
  · exact memRead_of_none h0 hm

theorem memWrite_error_iff {addr v : Word} {s : State} {f : Fault} :
    memWrite addr v s = .error f ↔ AccessFault addr s f := by
  refine ⟨memWrite_error, ?_⟩
  rintro (⟨h0, rfl⟩ | ⟨h0, hm, rfl⟩ | ⟨h0, hm, rfl⟩)
  · exact memWrite_of_odd h0
  · exact memWrite_of_rom h0 hm
  · exact memWrite_of_none h0 hm

/-- A LOAD and a STORE fault alike: as the access to their data address does. -/
theorem exec_fault_of_dataAddr {i : Instr} {addr : Word} {s : State} {f : Fault} (ha : dataAddr i s = some addr) :
    exec i s = .fault f ↔ AccessFault addr s f := by
  obtain ⟨a, ⟨-, hexec⟩ | ⟨-, hexec⟩⟩ := exec_of_dataAddr_some ha <;> rw [hexec]
  · exact finish_fault.trans memRead_error_iff
  · exact finish_fault.trans memWrite_error_iff

/-- READCR and WRITECR fault alike: exactly for the reserved numbers (R17). -/
theorem exec_fault_of_controlNumber {i : Instr} {n : Nat} {s : State} {f : Fault} (hn : controlNumber i = some n) :
    exec i s = .fault f ↔ 2 < n ∧ f = .reservedControlRegister n s.pc := by
  cases i
  case readcr =>
    cases hn
    exact finish_fault.trans ⟨readCR_error, by rintro ⟨hn, rfl⟩; exact readCR_of_reserved hn⟩
  case writecr =>
    cases hn
    exact finish_fault.trans ⟨writeCR_error, by rintro ⟨hn, rfl⟩; exact writeCR_of_reserved _ s hn⟩
  all_goals cases hn

/-- An instruction that makes no data access and names no control register cannot fault (R163). -/
theorem exec_completes {i : Instr} {s : State} (ha : dataAddr i s = none) (hn : controlNumber i = none) :
    ∃ t, exec i s = .next t := by
  cases i
  case loadRR | loadRI | storeRR | storeRI => cases ha
  case readcr | writecr => cases hn
  all_goals exact ⟨_, rfl⟩

/-! ### The causes (R161) -/

theorem AccessFault.faultCause {i : Instr} {addr : Word} {s : State} {f : Fault} (hi : Executes s i)
    (ha : dataAddr i s = some addr) (h : AccessFault addr s f) : FaultCause s f := by
  obtain ⟨h0, rfl⟩ | ⟨h0, hm, rfl⟩ | ⟨h0, hm, rfl⟩ := h
  · exact ⟨rfl, ⟨i, hi, ha⟩, h0⟩
  · exact ⟨rfl, ⟨i, hi, ha⟩, h0, hm⟩
  · exact ⟨rfl, ⟨i, hi, ha⟩, h0, hm⟩

/-- An instruction faults for its data access or for its control register number, and for nothing else. -/
theorem faultCause_of_exec_fault {i : Instr} {s : State} {f : Fault} (hi : Executes s i) (h : exec i s = .fault f) :
    FaultCause s f := by
  cases ha : dataAddr i s with
  | some addr => exact ((exec_fault_of_dataAddr ha).1 h).faultCause hi ha
  | none =>
    cases hn : controlNumber i with
    | some n =>
      obtain ⟨hlt, rfl⟩ := (exec_fault_of_controlNumber hn).1 h
      exact ⟨rfl, ⟨i, hi, hn⟩, hlt⟩
    | none =>
      obtain ⟨t, ht⟩ := exec_completes ha hn
      cases ht.symm.trans h

theorem faultCause_of_fetch_error {s : State} {f : Fault} (h : fetch s = .error f) : FaultCause s f := by
  obtain ⟨h0, rfl⟩ | ⟨h0, hm, rfl⟩ := fetch_error h
  · exact ⟨rfl, h0⟩
  · exact ⟨rfl, h0, hm⟩

theorem FaultCause.of_step {s : State} {f : Fault} (h : step s = .fault f) : FaultCause s f := by
  obtain hf | ⟨w, c, hf, hd, rfl⟩ | ⟨w, i, hf, hd, hi⟩ := step_fault.1 h
  · exact faultCause_of_fetch_error hf
  · exact ⟨rfl, hf, hd⟩
  · exact faultCause_of_exec_fault ⟨w, hf, hd⟩ hi

theorem Executes.step_of_accessFault {i : Instr} {addr : Word} {s : State} {f : Fault} (hi : Executes s i)
    (ha : dataAddr i s = some addr) (h : AccessFault addr s f) : step s = .fault f :=
  hi.step_eq.trans ((exec_fault_of_dataAddr ha).2 h)

theorem FaultCause.step {s : State} {f : Fault} (h : FaultCause s f) : step s = .fault f := by
  cases f with
  | fetchMisaligned =>
    obtain ⟨rfl, h0⟩ := h
    exact step_fault.2 (.inl (fetch_of_odd h0))
  | executeFromNonProgramMemory =>
    obtain ⟨rfl, h0, hm⟩ := h
    exact step_fault.2 (.inl (fetch_of_not_rom h0 hm))
  | reservedInstruction w c =>
    obtain ⟨rfl, hf, hd⟩ := h
    exact step_fault.2 (.inr (.inl ⟨w, c, hf, hd, rfl⟩))
  | unalignedAccess =>
    obtain ⟨rfl, ⟨i, hi, ha⟩, h0⟩ := h
    exact hi.step_of_accessFault ha (.inl ⟨h0, rfl⟩)
  | programMemoryAccess =>
    obtain ⟨rfl, ⟨i, hi, ha⟩, h0, hm⟩ := h
    exact hi.step_of_accessFault ha (.inr (.inl ⟨h0, hm, rfl⟩))
  | unmappedAccess =>
    obtain ⟨rfl, ⟨i, hi, ha⟩, h0, hm⟩ := h
    exact hi.step_of_accessFault ha (.inr (.inr ⟨h0, hm, rfl⟩))
  | reservedControlRegister =>
    obtain ⟨rfl, ⟨i, hi, hn⟩, hlt⟩ := h
    exact hi.step_eq.trans ((exec_fault_of_controlNumber hn).2 ⟨hlt, rfl⟩)

end Sys2Proof.Machine

namespace Sys2Proof.Claims

open Sys2Proof.Machine

/-- Settles O5: the two checks of the fetch pass, and the word it returns decodes to the instruction. -/
theorem stepRunsTheDecodedInstruction : Obligations.StepRunsTheDecodedInstruction :=
  fun _ _ h0 hm hm' hd => Executes.step_eq ⟨_, fetch_of_rom h0 hm hm', hd⟩

/-- Settles O8: the fetch, the decoder and the instruction each fault for their own causes alone, and each cause makes its
part fault. -/
theorem faultsAreExactlyTheSpecCauses : Obligations.FaultsAreExactlyTheSpecCauses :=
  fun _ _ => ⟨FaultCause.of_step, FaultCause.step⟩

/-- Settles O9: without a data access and a control register number nothing can fail. -/
theorem onlyMemoryAndControlInstructionsCanFault : Obligations.OnlyMemoryAndControlInstructionsCanFault :=
  fun _ _ => exec_completes

end Sys2Proof.Claims
end

section
/-! PROOFS. The reset and hazards family (70_reset_and_hazards.md): the end-of-run convention of R183. -/

namespace Sys2Proof.Machine

/-- A state that steps to itself is where every run from it stays. -/
theorem run_of_step_self {M : Host.Core} {s : M.State} (h : M.step s = .next s) (k : Nat) : M.run k s = .next s := by
  induction k with
  | zero => rfl
  | succ k ih => simp only [Host.Core.run, h, ih]

/-- At the end of a run the next instruction is `JMP 0` (R183, D19). -/
theorem AtEnd.executes {s : State} (h : AtEnd s) : Executes s (.jmp 0) :=
  ⟨haltWord, h, decode_jumpWord 14#4 0#9⟩

theorem exec_jmp_zero (s : State) : exec (.jmp 0) s = .next s := congrArg _ (jumpIf_always_zero s)

theorem AtEnd.step_eq {s : State} (h : AtEnd s) : step s = .next s := h.executes.step_eq.trans (exec_jmp_zero s)

end Sys2Proof.Machine

namespace Sys2Proof.Claims

open Sys2Proof.Machine

/-- Settles O58: the word at the end decodes to a jump by 0 bytes, which is to itself, and a run repeats that step. -/
theorem haltedStatesStayForEver : Obligations.HaltedStatesStayForEver :=
  fun _ h => ⟨h.step_eq, run_of_step_self (M := Sys2Proof.core) h.step_eq⟩

end Sys2Proof.Claims
end

section
/-! PROOFS. The round trips of the encoding and the step that is never refused (30_encoding.md sections 2 to 4, INDEX.md).
The relation `WordOf` names the words of the three formats; `decode` answers exactly by it, and so does `encode` on the
well-formed instructions. -/

namespace Sys2Proof

/-! ### The words of the instructions (R52) -/

/-- `w` is a word of the instruction `i`: one of the three formats, `i` in the format's row of the opcode map (R54) or of
the conditions table (R132). -/
inductive WordOf : Instr → Word → Prop where
  | rr {op : BitVec 4} {a b : RegId} {i : Instr} (h : rrInstr op a b = some i) : WordOf i (rrWord op a b)
  | ri {op : BitVec 4} {a : RegId} {imm5 : BitVec 5} {i : Instr} (h : riInstr op a imm5 = some i) :
      WordOf i (riWord op a imm5)
  | jump (cc : BitVec 4) (disp9 : BitVec 9) : WordOf (jumpInstr cc disp9) (jumpWord cc disp9)

theorem WordOf.decode_eq {i : Instr} {w : Word} (h : WordOf i w) : decode w = .ok i := by
  cases h with
  | rr h => exact decode_rrWord h
  | ri h => exact decode_riWord h
  | jump cc disp9 => exact decode_jumpWord cc disp9

/-! ### A word of a format is its fields joined -/

theorem rrWord_of_fields {w : Word} (hf : fmtField w = 0b00#2) (hs : sizeField w = 0b01#2) (hm : modeField w = 0b00#2) :
    rrWord (opField w) (aField w) (bField w) = w := by
  have hjoin : fmtField w ++ sizeField w ++ opField w ++ w.extractLsb' 5 3 ++ w.extractLsb' 2 3 ++ modeField w = w := by
    simp (disch := decide) only [fmtField, sizeField, opField, modeField,
      BitVec.extractLsb'_append_extractLsb'_eq_extractLsb']
    exact BitVec.extractLsb'_eq_self
  rwa [hf, hs, hm] at hjoin

theorem riWord_of_fields {w : Word} (hf : fmtField w = 0b01#2) (hs : sizeField w = 0b01#2) :
    riWord (opField w) (aField w) (immField w) = w := by
  have hjoin : fmtField w ++ sizeField w ++ opField w ++ w.extractLsb' 5 3 ++ immField w = w := by
    simp (disch := decide) only [fmtField, sizeField, opField, immField,
      BitVec.extractLsb'_append_extractLsb'_eq_extractLsb']
    exact BitVec.extractLsb'_eq_self
  rwa [hf, hs] at hjoin

theorem jumpWord_of_fields {w : Word} (hf : fmtField w = 0b10#2) (hj : jumpReservedBit w = false) :
    jumpWord (opField w) (dispField w) = w := by
  have hbit : w.extractLsb' 13 1 = 0b0#1 := by
    apply BitVec.eq_of_getLsbD_eq
    intro k hk
    obtain rfl : k = 0 := by omega
    simpa [jumpReservedBit] using hj
  have hhigh : (dispField w).extractLsb' 8 1 = w.extractLsb' 12 1 := BitVec.extractLsb'_append_eq_left
  have hlow : (dispField w).extractLsb' 0 8 = w.extractLsb' 0 8 := BitVec.extractLsb'_append_eq_right
  have hjoin : fmtField w ++ w.extractLsb' 13 1 ++ w.extractLsb' 12 1 ++ opField w ++ w.extractLsb' 0 8 = w := by
    simp (disch := decide) only [fmtField, opField, BitVec.extractLsb'_append_extractLsb'_eq_extractLsb']
    exact BitVec.extractLsb'_eq_self
  rwa [hf, hbit, ← hhigh, ← hlow] at hjoin

/-- A valid word is a word of the instruction it decodes to: no field of it is ignored. -/
theorem wordOf_of_decode {w : Word} {i : Instr} (h : decode w = .ok i) : WordOf i w := by
  have row := decodeRow_decode w
  rw [h] at row
  cases row with
  | jump hf hj => simpa only [jumpWord_of_fields hf hj] using WordOf.jump (opField w) (dispField w)
  | twoRegister hf hs _ hm hi => simpa only [rrWord_of_fields hf hs hm] using WordOf.rr hi
  | immediate hf hs _ hi => simpa only [riWord_of_fields hf hs] using WordOf.ri hi

/-! ### The operand fields and the operand ranges (R58, R61, R70) -/

theorem toInt_immBits {imm : Int} (h : SignedImmOk imm) : (immBits imm).toInt = imm :=
  BitVec.toInt_ofInt_eq_self (by decide) h.1 (by have := h.2; omega)

theorem toNat_numBits {n : Nat} (h : UnsignedImmOk n) : (numBits n).toNat = n :=
  (BitVec.toNat_ofNat n 5).trans (Nat.mod_eq_of_lt (Nat.lt_succ_of_le h))

@[simp] theorem immBits_toInt (imm5 : BitVec 5) : immBits imm5.toInt = imm5 := BitVec.ofInt_toInt
@[simp] theorem numBits_toNat (imm5 : BitVec 5) : numBits imm5.toNat = imm5 := by simp [numBits]
@[simp] theorem dispBits_toInt (disp9 : BitVec 9) : dispBits disp9.toInt = disp9 := BitVec.ofInt_toInt

theorem signedImmOk_toInt (imm5 : BitVec 5) : SignedImmOk imm5.toInt :=
  ⟨BitVec.le_toInt imm5, Int.le_of_lt_add_one BitVec.toInt_lt⟩

theorem unsignedImmOk_toNat (imm5 : BitVec 5) : UnsignedImmOk imm5.toNat := Nat.le_of_lt_succ imm5.isLt

theorem displacementOk_toInt (disp9 : BitVec 9) : DisplacementOk disp9.toInt :=
  ⟨BitVec.le_toInt disp9, Int.le_of_lt_add_one BitVec.toInt_lt⟩

/-! ### The encoder on the rows of the two tables (R54, R132) -/

theorem encode_rrInstr {op : BitVec 4} {a b : RegId} {i : Instr} (h : rrInstr op a b = some i) :
    WellFormed i = true ∧ encode i = rrWord op a b := by
  obtain ⟨n, hn⟩ := op
  interval_cases n <;> cases h <;> exact ⟨rfl, rfl⟩

theorem encode_riInstr {op : BitVec 4} {a : RegId} {imm5 : BitVec 5} {i : Instr} (h : riInstr op a imm5 = some i) :
    WellFormed i = true ∧ encode i = riWord op a imm5 := by
  obtain ⟨n, hn⟩ := op
  interval_cases n <;> cases h <;> simp [WellFormed, encode, signedImmOk_toInt, unsignedImmOk_toNat]

theorem encode_jumpInstr (cc : BitVec 4) (disp9 : BitVec 9) :
    WellFormed (jumpInstr cc disp9) = true ∧ encode (jumpInstr cc disp9) = jumpWord cc disp9 := by
  obtain ⟨n, hn⟩ := cc
  interval_cases n <;> exact ⟨decide_eq_true (displacementOk_toInt disp9), congrArg (jumpWord _) (dispBits_toInt disp9)⟩

/-- An instruction has one word, the encoder's, and only a well-formed one has a word. -/
theorem WordOf.encode_eq {i : Instr} {w : Word} (h : WordOf i w) : WellFormed i = true ∧ encode i = w := by
  cases h with
  | rr h => exact encode_rrInstr h
  | ri h => exact encode_riInstr h
  | jump cc disp9 => exact encode_jumpInstr cc disp9

theorem decodeBytes_bytes (w : Word) : decodeBytes (firstByte w) (secondByte w) = decode w :=
  congrArg decode (insnOfBytes_bytes w)

/-! ### Every well-formed instruction has a word -/

theorem wordOf_signedImm {op : BitVec 4} {a : RegId} {j : Int → Instr}
    (hj : ∀ imm5, riInstr op a imm5 = some (j imm5.toInt)) {imm : Int} (h : decide (SignedImmOk imm) = true) :
    WordOf (j imm) (riWord op a (immBits imm)) :=
  .ri (by rw [hj, toInt_immBits (of_decide_eq_true h)])

theorem wordOf_unsignedImm {op : BitVec 4} {a : RegId} {j : Nat → Instr}
    (hj : ∀ imm5, riInstr op a imm5 = some (j imm5.toNat)) {n : Nat} (h : decide (UnsignedImmOk n) = true) :
    WordOf (j n) (riWord op a (numBits n)) :=
  .ri (by rw [hj, toNat_numBits (of_decide_eq_true h)])

end Sys2Proof

namespace Sys2Proof.Machine

/-! ### No refusal -/

/-- No instruction is refused: one that can stop at all ends in `finish`, which answers with a fault. -/
theorem exec_ne_refused (i : Instr) (s : State) (q : Refusal) : exec i s ≠ .refused q := by
  cases i
  case loadRR | loadRI | storeRR | storeRI | readcr | writecr => exact finish_ne_refused q
  all_goals exact nofun

/-- A step could be refused only in the instruction. -/
theorem step_refused {s : State} {q : Refusal} :
    step s = .refused q ↔ ∃ w i, fetch s = .ok w ∧ decode w = .ok i ∧ exec i s = .refused q := by
  unfold step
  cases hf : fetch s with
  | error f => simp
  | ok w => cases hd : decode w <;> simp [hd]

end Sys2Proof.Machine

namespace Sys2Proof.Claims

open Sys2Proof.Machine

theorem wordOf_jump {i : Instr} (hi : isJump i = true) (hw : WellFormed i = true) : WordOf i (encode i) := by
  obtain ⟨cc, disp9, rfl⟩ := exists_jumpInstr hi hw
  rw [(encode_jumpInstr cc disp9).2]
  exact .jump cc disp9

/-- The word that the encoder gives a well-formed instruction is a word of it. -/
theorem wordOf_encode {i : Instr} (h : WellFormed i = true) : WordOf i (encode i) := by
  cases i
  case addRR | subRR | rsubRR | cmpRR | orRR | xorRR | andRR | testRR | movzRR | movRR | loadRR | storeRR => exact .rr rfl
  case addRI | subRI | rsubRI | cmpRI | orRI | xorRI | andRI | testRI | movRI =>
    exact wordOf_signedImm (fun _ => rfl) h
  case movzRI | loadRI | storeRI | slo | readcr | writecr => exact wordOf_unsignedImm (fun _ => rfl) h
  all_goals exact wordOf_jump rfl h

/-! ### The obligations -/

/-- Settles O2: the encoder's word is a word of the instruction, and such a word decodes to it. -/
theorem decodeOfEncodeIsTheInstruction : Obligations.DecodeOfEncodeIsTheInstruction := fun i h =>
  have hd : decode (encode i) = .ok i := (wordOf_encode h).decode_eq
  ⟨hd, (decodeBytes_bytes (encode i)).trans hd⟩

/-- Settles O3: a valid word is a word of the instruction it decodes to, and the encoder gives the only such word. -/
theorem encodeOfDecodeIsTheWord : Obligations.EncodeOfDecodeIsTheWord :=
  fun _ _ h => (wordOf_of_decode h).encode_eq

/-- Settles O10: neither the fetch nor the decoder can refuse, and no instruction does. -/
theorem noStepIsRefused : Obligations.NoStepIsRefused := fun s q h =>
  have ⟨_, i, _, _, hi⟩ := step_refused.1 h
  exec_ne_refused i s q hi

/-- Settles O1: the decoder evaluated on the fourteen words. -/
theorem specWordsDecode : Obligations.SpecWordsDecode := by
  unfold Obligations.SpecWordsDecode
  decide

end Sys2Proof.Claims
end
